-- ==== Sys2Proof/Word.lean ====
section
/-! DEFINITION. The machine's basic quantities: words, addresses, bytes of the I/O registers, single bits, text.
Rules R10 and R11 of spec/00_scope.md: 16-bit words, 12-bit addresses, 8-bit I/O registers, bit 0 least significant. -/

namespace Sys2Proof

/-- A word: "a 16-bit unsigned quantity" (R10). -/
abbrev Word := BitVec 16

/-- A word address, and the width of AR and PC (R10, R20). -/
abbrev Addr := BitVec 12

/-- The contents of INPR and OUTR (R10, R20). -/
abbrev IoByte := BitVec 8

/-- A one-bit register: E, FGI, FGO, IEN (R20). -/
abbrev Bit := BitVec 1

/-- One line of source text, or one token of it, as its characters in order.
DESIGN CHOICE (safe, log 8): a list of characters, so that the assembler is structural recursion. -/
abbrev Text := List Char

end Sys2Proof
end

