-- ==== Sys2Proof/Config.lean ====
section
/-! DEFINITION. What is fixed for the machine (R10 of spec/00_scope.md), the vocabulary of its diagnostics
(R290 of spec/45_host_interface.md, R300 of spec/60_exceptions.md), and the values the spec leaves open
as opaque constants: MSG_TEXT (U1), MSG_TAG (U2) and the assembler's progress entries (U3). -/

namespace Sys2Proof

/-- Number of memory words, `MEM_WORDS` (R10): addresses 0..4095. -/
def Config.memWords : Nat := 4096

/-- The largest value of SC, `SC_MAX` (R10, R29). -/
def Config.scMax : Nat := 4

/-- The level of a diagnostic entry (R290). -/
inductive Level where
  | info
  | debug
  | error
  deriving DecidableEq, Repr

/-- The emitting component of a diagnostic entry, which its source tag names (R290, U2). -/
inductive Component where
  | engine
  | assembler
  deriving DecidableEq, Repr

/-- The complete error taxonomy (R300). The kind is the code: there are no numbers. -/
inductive ErrorKind where
  | syntaxError
  | duplicateLabel
  | undefinedSymbol
  | unknownMnemonic
  | operandOutOfRange
  | addressOutOfRange
  | illegalOpcode
  deriving DecidableEq, Repr

/-- The kind of a diagnostic entry (R290). -/
inductive Kind where
  | error (k : ErrorKind)
  | alreadyHalted
  | fetch
  | other
  deriving DecidableEq, Repr

/-- What a diagnostic's text reports (R108, R300, R301, R302, R303). Together with the kind it determines
the text (U1), so an entry of the log holds it in the text's place (log 5). -/
inductive Context where
  /-- the fetched instruction: its address and the word (R108) -/
  | fetched (addr : Addr) (word : Word)
  /-- the illegal word and the address it was fetched from (R302) -/
  | illegalWord (word : Word) (addr : Addr)
  /-- the address beyond memory (R303) -/
  | badAddress (addr : Nat)
  /-- the engine is halted (R110) -/
  | halted
  /-- the source line an assembly error is about, numbered from 0 (R300 "line in text"; numbering: log 8) -/
  | sourceLine (line : Nat)
  /-- what an Info or Debug entry of the assembler says, left open (U3) -/
  | progress (detail : Nat)
  deriving DecidableEq, Repr

/-- An Info or Debug entry of the assembler: which of the two levels, and what it says (R235, U3). -/
structure ProgressNote where
  debug  : Bool
  detail : Nat
  deriving DecidableEq, Repr

/-- `MSG_TEXT` (R10, U1): the text of an entry, a function of its kind and of what it reports; open (log 5). -/
opaque Config.msgText : Kind → Context → String

/-- `MSG_TAG` (R10, U2): the spelling of a component's source tag; open (log 5). -/
opaque Config.msgTag : Component → String

/-- The Info and Debug entries the assembler emits for a source program, before its first Error entry (place 0),
between two Error entries, and after the last: any finite number (R235, U3); open (log 6).
A function of the source, since assembling the same source twice gives the same diagnostics (R211). -/
opaque Config.assemblerNotes : List Text → Nat → List ProgressNote

end Sys2Proof
end

