-- ==== Sys2Proof/Syntax.lean ====
section
/-! DEFINITION. The instruction set: the 25 instructions of spec/opcode_table.json, one constructor each
(R3 of spec/00_scope.md), and the form of a row of the opcode table. -/

namespace Sys2Proof

/-- The machine instructions (R3). A memory-reference instruction carries its indirect flag I and its 12-bit
address field (R71); register-reference and input/output instructions have no operands (R80). -/
inductive Instr where
  -- memory-reference (R131 to R137)
  | and (ind : Bool) (addr : Addr)
  | add (ind : Bool) (addr : Addr)
  | lda (ind : Bool) (addr : Addr)
  | sta (ind : Bool) (addr : Addr)
  | bun (ind : Bool) (addr : Addr)
  | bsa (ind : Bool) (addr : Addr)
  | isz (ind : Bool) (addr : Addr)
  -- register-reference (R161 to R172)
  | cla
  | cle
  | cma
  | cme
  | cir
  | cil
  | inc
  | spa
  | sna
  | sza
  | sze
  | hlt
  -- input/output (R191 to R196)
  | inp
  | out
  | ski
  | sko
  | ion
  | iof
  deriving DecidableEq, Repr

/-- Why the decoder refuses a word (R81, R84): it is an RRI or IOI word that is in neither table. -/
inductive DecodeError where
  | illegalOpcode (word : Word)
  deriving DecidableEq, Repr

/-- A row of the opcode table (R86): the words `w` with `w &&& mask = pattern` are the mnemonic's. -/
structure OpcodeRow where
  mnemonic : Text
  mask     : Word
  pattern  : Word
  deriving DecidableEq, Repr

end Sys2Proof
end

