-- ==== Sys2Proof/WellFormed.lean ====
section
/-! DEFINITION. Which terms are well formed. Every term of `Instr` is (its address field is 12 bits wide by its type:
R85 of spec/30_encoding.md, "for every instruction term"), so the checks that can fail are those on the
assembler's data: labels (R214) and symbol tables (R36). -/

namespace Sys2Proof

/-- Whitespace: space and horizontal tab (R16). -/
def isBlank (c : Char) : Bool := c == ' ' || c == '\t'

/-- The well-formedness of an instruction term (R85: "for `a` in 0..4095"): none can fail it. -/
def Instr.wellFormed : Instr → Bool
  | .and _ a | .add _ a | .lda _ a | .sta _ a | .bun _ a | .bsa _ a | .isz _ a => a.toNat < 4096
  | .cla | .cle | .cma | .cme | .cir | .cil | .inc | .spa | .sna | .sza | .sze | .hlt => true
  | .inp | .out | .ski | .sko | .ion | .iof => true

/-- A label: "any non-empty string of characters other than whitespace, `,` and `/`" (R214). -/
def Text.isLabel (l : Text) : Bool :=
  !l.isEmpty && l.all fun c => !isBlank c && c != ',' && c != '/'

/-- A symbol table holds labels only, and "entries are unique" (R36, R225). -/
def symbolsWellFormed : List (Text × Addr) → Bool
  | [] => true
  | (l, _) :: rest => Text.isLabel l && (rest.all fun e => e.1 != l) && symbolsWellFormed rest

end Sys2Proof
end

