-- ==== Sys2Proof/Decode.lean ====
section
/-! DEFINITION. The instruction encoding of spec/30_encoding.md: the fields of a word, the opcode tables, the decoder as
a total function on 16-bit words (R84), and the encoder (R85). Bit positions and opcode values are the spec's
decisions D1, D2 and D29 (log 7). -/

namespace Sys2Proof

/-! ## Fields -/

/-- The address field of an MRI, the operation selector of an RRI or IOI: `w[11:0]` (R71, R72, R73). -/
def addressField (w : Word) : Addr := w.extractLsb' 0 12

/-- The opcode field `w[14:12]` (R71). -/
def opcodeField (w : Word) : BitVec 3 := w.extractLsb' 12 3

/-- Bit 15: the indirect flag of an MRI, the class bit of opcode 7 (R71, R74). -/
def indirectBit (w : Word) : Bool := w.getLsbD 15

/-! ## Tables -/

/-- The register-reference operation selectors (R76). -/
def rriTable : List (Addr × Instr) :=
  [(0x800#12, .cla), (0x400#12, .cle), (0x200#12, .cma), (0x100#12, .cme), (0x080#12, .cir), (0x040#12, .cil),
   (0x020#12, .inc), (0x010#12, .spa), (0x008#12, .sna), (0x004#12, .sza), (0x002#12, .sze), (0x001#12, .hlt)]

/-- The input/output operation selectors (R77). -/
def ioiTable : List (Addr × Instr) :=
  [(0x800#12, .inp), (0x400#12, .out), (0x200#12, .ski), (0x100#12, .sko), (0x080#12, .ion), (0x040#12, .iof)]

/-! ## The decoder -/

/-- The decoder (R84): total on 16-bit words, and it reads no state. -/
def decode (w : Word) : Except DecodeError Instr :=
  match (opcodeField w).toNat with
  | 0 => .ok (.and (indirectBit w) (addressField w))
  | 1 => .ok (.add (indirectBit w) (addressField w))
  | 2 => .ok (.lda (indirectBit w) (addressField w))
  | 3 => .ok (.sta (indirectBit w) (addressField w))
  | 4 => .ok (.bun (indirectBit w) (addressField w))
  | 5 => .ok (.bsa (indirectBit w) (addressField w))
  | 6 => .ok (.isz (indirectBit w) (addressField w))
  | _ =>
    match (if indirectBit w then ioiTable else rriTable).lookup (addressField w) with
    | some i => .ok i
    | none   => .error (.illegalOpcode w)

/-- The 16-bit word whose bits, numbered as spec/opcode_table.json numbers them, are `w` below bit `nbits`
and 0 above. -/
def tableWord (nbits w : Nat) : Word := BitVec.ofNat 16 (w % 2 ^ nbits)

/-- What the decoder reads from an instruction given by its table bits. -/
def decodeTableWord (nbits w : Nat) : Option Instr :=
  match decode (tableWord nbits w) with
  | .ok i    => some i
  | .error _ => none

/-! ## The encoder -/

/-- The word of an MRI (R85): `i*0x8000 + opcode(m)*0x1000 + a`, that is `Iooo aaaa aaaa aaaa` (R71). -/
def encodeMri (op : BitVec 3) (ind : Bool) (addr : Addr) : Word :=
  BitVec.ofNat 16 (ind.toNat * 0x8000 + op.toNat * 0x1000 + addr.toNat)

/-- The encoder (R85), from the tables of R75, R76 and R77. -/
def encode : Instr → Word
  | .and i a => encodeMri 0 i a
  | .add i a => encodeMri 1 i a
  | .lda i a => encodeMri 2 i a
  | .sta i a => encodeMri 3 i a
  | .bun i a => encodeMri 4 i a
  | .bsa i a => encodeMri 5 i a
  | .isz i a => encodeMri 6 i a
  | .cla => 0x7800#16
  | .cle => 0x7400#16
  | .cma => 0x7200#16
  | .cme => 0x7100#16
  | .cir => 0x7080#16
  | .cil => 0x7040#16
  | .inc => 0x7020#16
  | .spa => 0x7010#16
  | .sna => 0x7008#16
  | .sza => 0x7004#16
  | .sze => 0x7002#16
  | .hlt => 0x7001#16
  | .inp => 0xF800#16
  | .out => 0xF400#16
  | .ski => 0xF200#16
  | .sko => 0xF100#16
  | .ion => 0xF080#16
  | .iof => 0xF040#16

/-- Is it a memory-reference instruction (R74)? -/
def isMri : Instr → Bool
  | .and _ _ | .add _ _ | .lda _ _ | .sta _ _ | .bun _ _ | .bsa _ _ | .isz _ _ => true
  | .cla | .cle | .cma | .cme | .cir | .cil | .inc | .spa | .sna | .sza | .sze | .hlt => false
  | .inp | .out | .ski | .sko | .ion | .iof => false

/-- The last SC value at which the instruction has a micro-step (R131 to R137, R160, R190). -/
def lastSc : Instr → Nat
  | .and _ _ | .add _ _ | .lda _ _ | .bsa _ _ => 3
  | .isz _ _ => 4
  | .sta _ _ | .bun _ _ => 2
  | .cla | .cle | .cma | .cme | .cir | .cil | .inc | .spa | .sna | .sza | .sze | .hlt => 2
  | .inp | .out | .ski | .sko | .ion | .iof => 2

/-- Ticks per instruction, from fetch to the last execute micro-step (R106). -/
def ticksOf (i : Instr) : Nat := lastSc i + 1

/-! ## Mnemonics -/

/-- The mnemonic of an instruction, in the upper-case spelling of the tables (R75, R76, R77, R216). -/
def mnemonicOf : Instr → Text
  | .and _ _ => "AND".toList
  | .add _ _ => "ADD".toList
  | .lda _ _ => "LDA".toList
  | .sta _ _ => "STA".toList
  | .bun _ _ => "BUN".toList
  | .bsa _ _ => "BSA".toList
  | .isz _ _ => "ISZ".toList
  | .cla => "CLA".toList
  | .cle => "CLE".toList
  | .cma => "CMA".toList
  | .cme => "CME".toList
  | .cir => "CIR".toList
  | .cil => "CIL".toList
  | .inc => "INC".toList
  | .spa => "SPA".toList
  | .sna => "SNA".toList
  | .sza => "SZA".toList
  | .sze => "SZE".toList
  | .hlt => "HLT".toList
  | .inp => "INP".toList
  | .out => "OUT".toList
  | .ski => "SKI".toList
  | .sko => "SKO".toList
  | .ion => "ION".toList
  | .iof => "IOF".toList

/-- The memory-reference instruction a mnemonic names, with the given indirect flag and address (R75, R227). -/
def mriNamed (m : Text) (ind : Bool) (addr : Addr) : Option Instr :=
  [Instr.and ind addr, .add ind addr, .lda ind addr, .sta ind addr, .bun ind addr, .bsa ind addr, .isz ind addr].find?
    fun i => mnemonicOf i == m

/-- The register-reference or input/output instruction a mnemonic names (R76, R77, R228). -/
def fixedNamed (m : Text) : Option Instr :=
  ((rriTable ++ ioiTable).map Prod.snd).find? fun i => mnemonicOf i == m

/-- The opcode table (R86): spec/opcode_table.json, its rows in order. -/
def opcodeRows : List OpcodeRow :=
  [⟨"AND".toList, 0x7000#16, 0x0000#16⟩, ⟨"ADD".toList, 0x7000#16, 0x1000#16⟩, ⟨"LDA".toList, 0x7000#16, 0x2000#16⟩,
   ⟨"STA".toList, 0x7000#16, 0x3000#16⟩, ⟨"BUN".toList, 0x7000#16, 0x4000#16⟩, ⟨"BSA".toList, 0x7000#16, 0x5000#16⟩,
   ⟨"ISZ".toList, 0x7000#16, 0x6000#16⟩] ++
  [⟨"CLA".toList, 0xFFFF#16, 0x7800#16⟩, ⟨"CLE".toList, 0xFFFF#16, 0x7400#16⟩, ⟨"CMA".toList, 0xFFFF#16, 0x7200#16⟩,
   ⟨"CME".toList, 0xFFFF#16, 0x7100#16⟩, ⟨"CIR".toList, 0xFFFF#16, 0x7080#16⟩, ⟨"CIL".toList, 0xFFFF#16, 0x7040#16⟩,
   ⟨"INC".toList, 0xFFFF#16, 0x7020#16⟩, ⟨"SPA".toList, 0xFFFF#16, 0x7010#16⟩, ⟨"SNA".toList, 0xFFFF#16, 0x7008#16⟩,
   ⟨"SZA".toList, 0xFFFF#16, 0x7004#16⟩, ⟨"SZE".toList, 0xFFFF#16, 0x7002#16⟩, ⟨"HLT".toList, 0xFFFF#16, 0x7001#16⟩] ++
  [⟨"INP".toList, 0xFFFF#16, 0xF800#16⟩, ⟨"OUT".toList, 0xFFFF#16, 0xF400#16⟩, ⟨"SKI".toList, 0xFFFF#16, 0xF200#16⟩,
   ⟨"SKO".toList, 0xFFFF#16, 0xF100#16⟩, ⟨"ION".toList, 0xFFFF#16, 0xF080#16⟩, ⟨"IOF".toList, 0xFFFF#16, 0xF040#16⟩]

end Sys2Proof
end

