-- ==== Sys2Proof/Machine/State.lean ====
section
/-! DEFINITION. Everything the spec gives the machine, as plain data: the registers of R20, memory (R35), and the
program-derived state (R36) of spec/10_state.md; the reset state (R39); the ways a step can stop. -/

namespace Sys2Proof.Machine

/-- Memory (R35, R50): pairs of a word address and the word there, in one canonical form (`Memory.wf`).
The machine has no unit smaller than a word (R55), so a cell is a word (log 1).
What an unlisted address reads as is `Memory.unlisted`. -/
abbrev Memory := List (Nat × Word)

/-- An entry of the Message log (R290). The text is `Entry.text`, a function of `kind` and `context` (log 5). -/
structure Entry where
  level   : Level
  tag     : Component
  kind    : Kind
  context : Context
  deriving DecidableEq, Repr

/-- The whole state of the core. -/
structure State where
  /-- accumulator (R22) -/
  ac : Word
  /-- data register (R23) -/
  dr : Word
  /-- temporary register, read and written by nothing (R27) -/
  tr : Word
  /-- instruction register (R24) -/
  ir : Word
  /-- address register (R25) -/
  ar : Addr
  /-- program counter (R26) -/
  pc : Addr
  /-- extended carry (R28) -/
  e : Bit
  /-- sequence counter, a natural number (R29) -/
  sc : Nat
  /-- terminal flag (R30) -/
  halted : Bool
  /-- input register (R31) -/
  inpr : IoByte
  /-- output register (R31) -/
  outr : IoByte
  /-- input flag (R32) -/
  fgi : Bit
  /-- output flag (R32) -/
  fgo : Bit
  /-- interrupt-enable flag, read by nothing (R33) -/
  ien : Bit
  /-- memory (R35) -/
  mem : Memory
  /-- SourceProgram (R36) -/
  source : List Text
  /-- SymbolTable ST, in the order of binding (R36) -/
  symbols : List (Text × Addr)
  /-- AssembledProgram AP (R36) -/
  program : List (Addr × Word)
  /-- Message log (R36) -/
  log : List Entry
  deriving DecidableEq, Repr

/-- The machine right after construction or reset (R39, R271, R330): all zero, nothing listed, nothing loaded. -/
def State.reset : State where
  ac := 0
  dr := 0
  tr := 0
  ir := 0
  ar := 0
  pc := 0
  e := 0
  sc := 0
  halted := false
  inpr := 0
  outr := 0
  fgi := 0
  fgo := 0
  ien := 0
  mem := []
  source := []
  symbols := []
  program := []
  log := []

/-- Why a step stops with a fault. -/
inductive Fault where
  /-- A tick with Halted = 0 at an SC for which the instruction in IR has no micro-step (R105, U5): raised by `tick` and
  `step`, in states no run from reset reaches. Safe: the spec asks for exactly this fault, and the machine stops. -/
  | unreachable
  deriving DecidableEq, Repr

/-- Why an instruction has no meaning. -/
inductive Refusal where
  /-- The instruction is not modelled; raised by an arm of `exec` that has no meaning. No arm does. Safe: the model stops. -/
  | notModelled (mnemonic : String)
  deriving DecidableEq, Repr

/-- A runtime error and what it reports (R300, R302, R303). -/
inductive RuntimeError where
  | illegalOpcode (word : Word) (addr : Addr)
  | addressOutOfRange (addr : Nat)
  deriving DecidableEq, Repr

/-- Why a micro-step does not complete: it raises a runtime error (R301), or it does not exist (R105). -/
inductive Stop where
  | raised (e : RuntimeError)
  | noMicroStep
  deriving DecidableEq, Repr

/-- A micro-step's answer: the state after it, or why it does not complete. -/
abbrev Micro := Except Stop State

/-- A step's answer. -/
abbrev Result := Host.Outcome State Fault Refusal

end Sys2Proof.Machine
end

