-- ==== Sys2Proof/Machine/Ops.lean ====
section
/-! DEFINITION. The shared operations: memory (spec/20_memory.md), diagnostics (R290), runtime errors (R301) and the one exit
from Halt (R308), skips (R15), and how micro-steps make up a tick and an instruction (R103). -/

namespace Sys2Proof.Machine

/-! ## Memory -/

/-- What an unlisted address reads as: 0, "if no write since reset (or construction)" (R61, R39). -/
def Memory.unlisted : Word := 0

/-- The word at an address, whether or not it is in range. -/
def Memory.word : Memory → Nat → Word
  | [], _ => Memory.unlisted
  | (k, v) :: rest, a => if k = a then v else Memory.word rest a

/-- Memory with the word at an address replaced, keeping the canonical form. -/
def Memory.setWord : Memory → Nat → Word → Memory
  | [], a, v => if v = Memory.unlisted then [] else [(a, v)]
  | (k, w) :: rest, a, v =>
    if a < k then (if v = Memory.unlisted then (k, w) :: rest else (a, v) :: (k, w) :: rest)
    else if a = k then (if v = Memory.unlisted then rest else (a, v) :: rest)
    else (k, w) :: Memory.setWord rest a v

/-- Addresses from `lo` on, strictly rising, in range, and no entry equal to what an unlisted address reads as. -/
def Memory.wfFrom : Nat → Memory → Bool
  | _, [] => true
  | lo, (k, v) :: rest => lo ≤ k && k < Config.memWords && v != Memory.unlisted && Memory.wfFrom (k + 1) rest

/-- The canonical form of a memory: equal contents are equal data. -/
def Memory.wf (m : Memory) : Bool := Memory.wfFrom 0 m

/-- `MemRead(addr, 1)` (R51). -/
def memRead (m : Memory) (a : Nat) : Except Stop Word :=
  if a < Config.memWords then .ok (m.word a) else .error (.raised (.addressOutOfRange a))

/-- `MemWrite(addr, 1, v)` (R52). -/
def memWrite (m : Memory) (a : Nat) (v : Word) : Except Stop Memory :=
  if a < Config.memWords then .ok (m.setWord a v) else .error (.raised (.addressOutOfRange a))

/-! ## Diagnostics -/

/-- The text of an entry (R290, MSG_TEXT). -/
def Entry.text (x : Entry) : String := Config.msgText x.kind x.context

/-- The spelling of an entry's source tag (R290, MSG_TAG). -/
def Entry.tagText (x : Entry) : String := Config.msgTag x.tag

/-- `emit`: append one entry to the log (R15, R290, R291). -/
def emit (x : Entry) (s : State) : State := { s with log := s.log ++ [x] }

/-- The entries an operation that took `before` to `after` returned: what it appended to the log (R273, R277, R291; log 5). -/
def returned (before after : State) : List Entry := after.log.drop before.log.length

/-! ## Runtime errors and the exit from Halt -/

/-- The Error entry of a runtime error (R301, R302, R303). -/
def errorEntry : RuntimeError → Entry
  | .illegalOpcode w a   => ⟨.error, .engine, .error .illegalOpcode, .illegalWord w a⟩
  | .addressOutOfRange a => ⟨.error, .engine, .error .addressOutOfRange, .badAddress a⟩

/-- `raise E(info)` in a tick (R301, R307): one Error entry, Halted set, nothing else changed. -/
def takeError (x : RuntimeError) (s : State) : State := { emit (errorEntry x) s with halted := true }

/-- `reset()`, the only exit from Halt (R308, R279): the reset state, with SourceProgram, ST and AP untouched. -/
def resetCore (s : State) : State :=
  { State.reset with source := s.source, symbols := s.symbols, program := s.program }

/-- The Info entry of a tick while halted (R110). -/
def haltedEntry : Entry := ⟨.info, .engine, .alreadyHalted, .halted⟩

/-- A tick while halted (R110): the entry, and nothing else. -/
def noticeHalted (s : State) : State := emit haltedEntry s

/-! ## Control -/

/-- `skip` when the condition holds: `PC <- PC + 1` modulo 4096 (R15, R160). -/
def skipIf (c : Bool) (s : State) : State := { s with pc := if c then s.pc + 1 else s.pc }

/-- `SC <- 0`: the instruction is complete (R15, R103). -/
def endInstruction (s : State) : State := { s with sc := 0 }

/-- A micro-step that does not complete, in the state before it (R301, R105). -/
def takeStop (s : State) : Stop → Result
  | .raised x    => .next (takeError x s)
  | .noMicroStep => .fault .unreachable

/-- One micro-step as one tick: its effect, or the runtime error it raised with none of its writes (R301). -/
def settle (s : State) : Micro → Result
  | .ok t    => .next t
  | .error x => takeStop s x

/-- The micro-steps of one instruction up to `SC <- 0` (R103), at most `n` of them. -/
def complete (m : State → Micro) : Nat → State → Result
  | 0, _ => .fault .unreachable
  | n + 1, s =>
    match m s with
    | .ok t    => if t.sc = 0 then .next t else complete m n t
    | .error x => takeStop s x

/-- The execute phase of an instruction with a single micro-step, at SC = 2 (R160, R190). -/
def oneStep (effect : State → State) (s : State) : Micro :=
  match s.sc with
  | 2 => .ok (endInstruction (effect s))
  | _ => .error .noMicroStep

end Sys2Proof.Machine
end

