-- ==== Sys2Proof/Machine/Flags.lean ====
section
/-! DEFINITION. The computations of E and the conditions of the skips: ADD's carry (R132), the rotates through E (R165, R166),
and what SPA, SNA, SZA, SZE, ISZ, SKI and SKO test (R137, R168 to R171, R193, R194). -/

namespace Sys2Proof.Machine

/-- The two's-complement reading of a word (R12). -/
def signed16 (v : Word) : Int := if v.toNat < 0x8000 then v.toNat else (v.toNat : Int) - 0x10000

/-- The 17-bit unsigned sum `AC + DR` (R132). -/
def sum17 (a b : Word) : BitVec 17 := a.setWidth 17 + b.setWidth 17

/-- `s[15:0]` (R132). -/
def sumWord (a b : Word) : Word := (sum17 a b).extractLsb' 0 16

/-- `s[16]`: the carry out of bit 15 (R132). -/
def sumCarry (a b : Word) : Bit := (sum17 a b).extractLsb' 16 1

/-- `{E, AC[15:1]}`: AC after CIR (R165). -/
def rotateRight (e : Bit) (a : Word) : Word := e ++ a.extractLsb' 1 15

/-- `AC[0]`: E after CIR (R165). -/
def lowBit (a : Word) : Bit := a.extractLsb' 0 1

/-- `{AC[14:0], E}`: AC after CIL (R166). -/
def rotateLeft (a : Word) (e : Bit) : Word := a.extractLsb' 0 15 ++ e

/-- `AC[15]`: E after CIL (R166). -/
def highBit (a : Word) : Bit := a.extractLsb' 15 1

/-- SPA's condition: `signed16(AC) >= 0` (R168). -/
def isPositive (a : Word) : Bool := decide (0 ≤ signed16 a)

/-- SNA's condition: `signed16(AC) < 0` (R169). -/
def isNegative (a : Word) : Bool := decide (signed16 a < 0)

/-- SZA's condition, and ISZ's on the incremented word (R170, R137). -/
def isZero (a : Word) : Bool := a == 0

/-- SKI's and SKO's condition: the flag is 1 (R193, R194). -/
def flagSet (f : Bit) : Bool := f == 1

/-- SZE's condition: `E = 0` (R171). -/
def flagClear (f : Bit) : Bool := f == 0

/-- `{AC[15:8], INPR}`: AC after INP (R191). -/
def mergeLow (a : Word) (c : IoByte) : Word := a.extractLsb' 8 8 ++ c

/-- `AC[7:0]`: what OUT sends (R192). -/
def lowByte (a : Word) : IoByte := a.extractLsb' 0 8

end Sys2Proof.Machine
end

