-- ==== Sys2Proof/Machine/Operands.lean ====
section
/-! DEFINITION. Operand forms: the direct and the one-level indirect address of a memory-reference instruction (R78, R79 of
spec/30_encoding.md), how decode puts it in AR (R101), and the operand-read micro-step (R131, R132, R133, R137). -/

namespace Sys2Proof.Machine

/-- The effective address (R78): the address field, or, with one level of indirection, the low 12 bits of the word it
points to (R79). -/
def effectiveAddress (m : Memory) (field : Addr) (ind : Bool) : Except Stop Addr :=
  if ind then
    match memRead m field.toNat with
    | .ok w    => .ok (addressField w)
    | .error x => .error x
  else .ok field

/-- The decode micro-step of a legal word (R101): `AR <- IR[11:0]`, then one indirection, then `SC <- 2`. -/
def loadAddress (field : Addr) (ind : Bool) (s : State) : Micro :=
  match effectiveAddress s.mem field ind with
  | .ok a    => .ok { s with ar := a, sc := 2 }
  | .error x => .error x

/-- `DR <- MemRead(AR, 1); SC <- 3` (R131, R132, R133, R137 at SC = 2). -/
def readOperand (s : State) : Micro :=
  match memRead s.mem s.ar.toNat with
  | .ok w    => .ok { s with dr := w, sc := 3 }
  | .error x => .error x

/-- An instruction from decode on (R101, R103): the address field and the indirect flag its operands give, then all its
execute micro-steps, of which none has more than three (SC = 2, 3, 4: R29). -/
def runInstruction (field : Addr) (ind : Bool) (m : State → Micro) (s : State) : Result :=
  match loadAddress field ind s with
  | .ok t    => complete m 3 t
  | .error x => takeStop s x

end Sys2Proof.Machine
end

