-- ==== Sys2Proof/Machine/Ioi.lean ====
section
/-! DEFINITION. The input/output instructions (spec/43_io.md): one execute micro-step each, at SC = 2 (R190), on AC, PC and the
I/O registers as plain storage, with no device behind them (R31, R32, R33). -/

namespace Sys2Proof.Machine

/-- INP (R191): `AC <- {AC[15:8], INPR}; FGI <- 0`. -/
def microInp : State → Micro := oneStep fun s => { s with ac := mergeLow s.ac s.inpr, fgi := 0 }

/-- OUT (R192): `OUTR <- AC[7:0]; FGO <- 0`. -/
def microOut : State → Micro := oneStep fun s => { s with outr := lowByte s.ac, fgo := 0 }

/-- SKI (R193): skip if FGI = 1. -/
def microSki : State → Micro := oneStep fun s => skipIf (flagSet s.fgi) s

/-- SKO (R194): skip if FGO = 1. -/
def microSko : State → Micro := oneStep fun s => skipIf (flagSet s.fgo) s

/-- ION (R195): `IEN <- 1`. -/
def microIon : State → Micro := oneStep fun s => { s with ien := 1 }

/-- IOF (R196): `IEN <- 0`. -/
def microIof : State → Micro := oneStep fun s => { s with ien := 0 }

/-- INP from decode on (R191): decode leaves the selector, the word's low 12 bits, in AR (R101, D6). -/
def execInp (s : State) : Result := runInstruction 0x800#12 false microInp s

/-- OUT from decode on (R192): decode leaves the selector, the word's low 12 bits, in AR (R101, D6). -/
def execOut (s : State) : Result := runInstruction 0x400#12 false microOut s

/-- SKI from decode on (R193): decode leaves the selector, the word's low 12 bits, in AR (R101, D6). -/
def execSki (s : State) : Result := runInstruction 0x200#12 false microSki s

/-- SKO from decode on (R194): decode leaves the selector, the word's low 12 bits, in AR (R101, D6). -/
def execSko (s : State) : Result := runInstruction 0x100#12 false microSko s

/-- ION from decode on (R195): decode leaves the selector, the word's low 12 bits, in AR (R101, D6). -/
def execIon (s : State) : Result := runInstruction 0x080#12 false microIon s

/-- IOF from decode on (R196): decode leaves the selector, the word's low 12 bits, in AR (R101, D6). -/
def execIof (s : State) : Result := runInstruction 0x040#12 false microIof s

end Sys2Proof.Machine
end

