-- ==== Sys2Proof/Machine/Mri.lean ====
section
/-! DEFINITION. The memory-reference instructions (spec/41_mri.md). For each instruction: `micro…`, its execute micro-step at
the current SC, with AR holding the effective address (R130); and `exec…`, the instruction from decode on. -/

namespace Sys2Proof.Machine

/-- AND (R131): `SC = 2: DR <- MemRead(AR, 1); SC <- 3`, `SC = 3: AC <- AC & DR; SC <- 0`. -/
def microAnd (s : State) : Micro :=
  match s.sc with
  | 2 => readOperand s
  | 3 => .ok (endInstruction { s with ac := s.ac &&& s.dr })
  | _ => .error .noMicroStep

/-- ADD (R132): E receives the carry out of bit 15, and the old E is not a carry in. -/
def microAdd (s : State) : Micro :=
  match s.sc with
  | 2 => readOperand s
  | 3 => .ok (endInstruction { s with ac := sumWord s.ac s.dr, e := sumCarry s.ac s.dr })
  | _ => .error .noMicroStep

/-- LDA (R133). -/
def microLda (s : State) : Micro :=
  match s.sc with
  | 2 => readOperand s
  | 3 => .ok (endInstruction { s with ac := s.dr })
  | _ => .error .noMicroStep

/-- STA (R134): `SC = 2: MemWrite(AR, 1, AC); SC <- 0`. -/
def microSta (s : State) : Micro :=
  match s.sc with
  | 2 =>
    match memWrite s.mem s.ar.toNat s.ac with
    | .ok m    => .ok (endInstruction { s with mem := m })
    | .error x => .error x
  | _ => .error .noMicroStep

/-- BUN (R135): `SC = 2: PC <- AR; SC <- 0`. -/
def microBun : State → Micro := oneStep fun s => { s with pc := s.ar }

/-- BSA (R136): the return address is stored at the old AR, and AR then holds the body's address, modulo 4096. -/
def microBsa (s : State) : Micro :=
  match s.sc with
  | 2 =>
    match memWrite s.mem s.ar.toNat (s.pc.setWidth 16) with
    | .ok m    => .ok { s with mem := m, ar := s.ar + 1, sc := 3 }
    | .error x => .error x
  | 3 => .ok (endInstruction { s with pc := s.ar })
  | _ => .error .noMicroStep

/-- ISZ (R137): read, increment, then write back and skip if the word written is 0. E is not written. -/
def microIsz (s : State) : Micro :=
  match s.sc with
  | 2 => readOperand s
  | 3 => .ok { s with dr := s.dr + 1, sc := 4 }
  | 4 =>
    match memWrite s.mem s.ar.toNat s.dr with
    | .ok m    => .ok (endInstruction (skipIf (isZero s.dr) { s with mem := m }))
    | .error x => .error x
  | _ => .error .noMicroStep

/-- AND, direct and indirect (R131). -/
def execAnd (ind : Bool) (addr : Addr) (s : State) : Result := runInstruction addr ind microAnd s

/-- ADD, direct and indirect (R132). -/
def execAdd (ind : Bool) (addr : Addr) (s : State) : Result := runInstruction addr ind microAdd s

/-- LDA, direct and indirect (R133). -/
def execLda (ind : Bool) (addr : Addr) (s : State) : Result := runInstruction addr ind microLda s

/-- STA, direct and indirect (R134). -/
def execSta (ind : Bool) (addr : Addr) (s : State) : Result := runInstruction addr ind microSta s

/-- BUN, direct and indirect (R135). -/
def execBun (ind : Bool) (addr : Addr) (s : State) : Result := runInstruction addr ind microBun s

/-- BSA, direct and indirect (R136). -/
def execBsa (ind : Bool) (addr : Addr) (s : State) : Result := runInstruction addr ind microBsa s

/-- ISZ, direct and indirect (R137). -/
def execIsz (ind : Bool) (addr : Addr) (s : State) : Result := runInstruction addr ind microIsz s

end Sys2Proof.Machine
end

