-- ==== Sys2Proof/Machine/Rri.lean ====
section
/-! DEFINITION. The register-reference instructions (spec/42_register_reference.md): one execute micro-step each, at SC = 2
(R160). For each instruction: `micro…`, that micro-step; and `exec…`, the instruction from decode on. -/

namespace Sys2Proof.Machine

/-- CLA (R161): `AC <- 0`. -/
def microCla : State → Micro := oneStep fun s => { s with ac := 0 }

/-- CLE (R162): `E <- 0`. -/
def microCle : State → Micro := oneStep fun s => { s with e := 0 }

/-- CMA (R163): `AC <- ~AC`. -/
def microCma : State → Micro := oneStep fun s => { s with ac := ~~~s.ac }

/-- CME (R164): `E <- ~E`. -/
def microCme : State → Micro := oneStep fun s => { s with e := ~~~s.e }

/-- CIR (R165): `AC <- {E, AC[15:1]}; E <- AC[0]`, both from the old AC and E. -/
def microCir : State → Micro := oneStep fun s => { s with ac := rotateRight s.e s.ac, e := lowBit s.ac }

/-- CIL (R166): `AC <- {AC[14:0], E}; E <- AC[15]`, both from the old AC and E. -/
def microCil : State → Micro := oneStep fun s => { s with ac := rotateLeft s.ac s.e, e := highBit s.ac }

/-- INC (R167): `AC <- AC + 1` modulo 2^16. E is not written. -/
def microInc : State → Micro := oneStep fun s => { s with ac := s.ac + 1 }

/-- SPA (R168): skip if AC is not negative (zero counts as positive). -/
def microSpa : State → Micro := oneStep fun s => skipIf (isPositive s.ac) s

/-- SNA (R169): skip if AC is negative. -/
def microSna : State → Micro := oneStep fun s => skipIf (isNegative s.ac) s

/-- SZA (R170): skip if AC is zero. -/
def microSza : State → Micro := oneStep fun s => skipIf (isZero s.ac) s

/-- SZE (R171): skip if E is zero. -/
def microSze : State → Micro := oneStep fun s => skipIf (flagClear s.e) s

/-- HLT (R172): `Halted <- 1`, with no diagnostic entry. -/
def microHlt : State → Micro := oneStep fun s => { s with halted := true }

/-- CLA from decode on (R161): decode leaves the selector, the word's low 12 bits, in AR (R101, D6). -/
def execCla (s : State) : Result := runInstruction 0x800#12 false microCla s

/-- CLE from decode on (R162): decode leaves the selector, the word's low 12 bits, in AR (R101, D6). -/
def execCle (s : State) : Result := runInstruction 0x400#12 false microCle s

/-- CMA from decode on (R163): decode leaves the selector, the word's low 12 bits, in AR (R101, D6). -/
def execCma (s : State) : Result := runInstruction 0x200#12 false microCma s

/-- CME from decode on (R164): decode leaves the selector, the word's low 12 bits, in AR (R101, D6). -/
def execCme (s : State) : Result := runInstruction 0x100#12 false microCme s

/-- CIR from decode on (R165): decode leaves the selector, the word's low 12 bits, in AR (R101, D6). -/
def execCir (s : State) : Result := runInstruction 0x080#12 false microCir s

/-- CIL from decode on (R166): decode leaves the selector, the word's low 12 bits, in AR (R101, D6). -/
def execCil (s : State) : Result := runInstruction 0x040#12 false microCil s

/-- INC from decode on (R167): decode leaves the selector, the word's low 12 bits, in AR (R101, D6). -/
def execInc (s : State) : Result := runInstruction 0x020#12 false microInc s

/-- SPA from decode on (R168): decode leaves the selector, the word's low 12 bits, in AR (R101, D6). -/
def execSpa (s : State) : Result := runInstruction 0x010#12 false microSpa s

/-- SNA from decode on (R169): decode leaves the selector, the word's low 12 bits, in AR (R101, D6). -/
def execSna (s : State) : Result := runInstruction 0x008#12 false microSna s

/-- SZA from decode on (R170): decode leaves the selector, the word's low 12 bits, in AR (R101, D6). -/
def execSza (s : State) : Result := runInstruction 0x004#12 false microSza s

/-- SZE from decode on (R171): decode leaves the selector, the word's low 12 bits, in AR (R101, D6). -/
def execSze (s : State) : Result := runInstruction 0x002#12 false microSze s

/-- HLT from decode on (R172): decode leaves the selector, the word's low 12 bits, in AR (R101, D6). -/
def execHlt (s : State) : Result := runInstruction 0x001#12 false microHlt s

end Sys2Proof.Machine
end

