-- ==== Sys2Proof/Machine/Dispatch.lean ====
section
/-! DEFINITION. What each instruction does from decode on: one arm per constructor of Instr. -/

namespace Sys2Proof.Machine

/-- The instruction as a whole, after its fetch (R100): decode (R101) with the operands of the term, then every execute
micro-step (R103). It does not read IR, SC or Halted (log 3). -/
def exec (i : Instr) (s : State) : Host.Outcome State Fault Refusal :=
  match i with
  -- memory-reference (spec/41_mri.md)
  | .and ind addr => Sys2Proof.Machine.execAnd ind addr s
  | .add ind addr => Sys2Proof.Machine.execAdd ind addr s
  | .lda ind addr => Sys2Proof.Machine.execLda ind addr s
  | .sta ind addr => Sys2Proof.Machine.execSta ind addr s
  | .bun ind addr => Sys2Proof.Machine.execBun ind addr s
  | .bsa ind addr => Sys2Proof.Machine.execBsa ind addr s
  | .isz ind addr => Sys2Proof.Machine.execIsz ind addr s
  -- register-reference (spec/42_register_reference.md)
  | .cla => Sys2Proof.Machine.execCla s
  | .cle => Sys2Proof.Machine.execCle s
  | .cma => Sys2Proof.Machine.execCma s
  | .cme => Sys2Proof.Machine.execCme s
  | .cir => Sys2Proof.Machine.execCir s
  | .cil => Sys2Proof.Machine.execCil s
  | .inc => Sys2Proof.Machine.execInc s
  | .spa => Sys2Proof.Machine.execSpa s
  | .sna => Sys2Proof.Machine.execSna s
  | .sza => Sys2Proof.Machine.execSza s
  | .sze => Sys2Proof.Machine.execSze s
  | .hlt => Sys2Proof.Machine.execHlt s
  -- input/output (spec/43_io.md)
  | .inp => Sys2Proof.Machine.execInp s
  | .out => Sys2Proof.Machine.execOut s
  | .ski => Sys2Proof.Machine.execSki s
  | .sko => Sys2Proof.Machine.execSko s
  | .ion => Sys2Proof.Machine.execIon s
  | .iof => Sys2Proof.Machine.execIof s

end Sys2Proof.Machine
end

