-- ==== Sys2Proof/Machine/Cycle.lean ====
section
/-! DEFINITION. The instruction cycle (spec/40_cycle.md): fetch at SC = 0, decode at SC = 1, execute from SC = 2, and the Halt
state; one micro-step per `tick`; and the same cycle one instruction at a time. -/

namespace Sys2Proof.Machine

/-- The execute micro-step that the rule of the instruction gives for the current SC (R103). -/
def micro : Instr → State → Micro
  | .and _ _, s => microAnd s
  | .add _ _, s => microAdd s
  | .lda _ _, s => microLda s
  | .sta _ _, s => microSta s
  | .bun _ _, s => microBun s
  | .bsa _ _, s => microBsa s
  | .isz _ _, s => microIsz s
  | .cla, s => microCla s
  | .cle, s => microCle s
  | .cma, s => microCma s
  | .cme, s => microCme s
  | .cir, s => microCir s
  | .cil, s => microCil s
  | .inc, s => microInc s
  | .spa, s => microSpa s
  | .sna, s => microSna s
  | .sza, s => microSza s
  | .sze, s => microSze s
  | .hlt, s => microHlt s
  | .inp, s => microInp s
  | .out, s => microOut s
  | .ski, s => microSki s
  | .sko, s => microSko s
  | .ion, s => microIon s
  | .iof, s => microIof s

/-- The entry of the debug trace (R108): the fetched instruction's address and word. -/
def fetchEntry (addr : Addr) (w : Word) : Entry := ⟨.debug, .engine, .fetch, .fetched addr w⟩

/-- Fetch, at SC = 0 (R100): `AR <- PC; IR <- MemRead(PC, 1); PC <- PC + 1; SC <- 1`, all from the values before the tick,
and the debug entry when asked for (R108). -/
def fetch (debug : Bool) (s : State) : Micro :=
  match memRead s.mem s.pc.toNat with
  | .error x => .error x
  | .ok w =>
    let t := { s with ar := s.pc, ir := w, pc := s.pc + 1, sc := 1 }
    .ok (if debug then emit (fetchEntry s.pc w) t else t)

/-- Decode, at SC = 1 (R101): an illegal word raises IllegalOpcode(IR, PC - 1) (R102); a legal one loads AR with IR[11:0] and,
for a memory-reference word with IR[15] = 1, makes one indirection. -/
def decodeStep (s : State) : Micro :=
  match decode s.ir with
  | .error _ => .error (.raised (.illegalOpcode s.ir (s.pc - 1)))
  | .ok i    => loadAddress (addressField s.ir) (isMri i && indirectBit s.ir) s

/-- Execute, from SC = 2 (R103): IR is decoded again. With an illegal IR there is no micro-step (R105). -/
def executeStep (s : State) : Micro :=
  match decode s.ir with
  | .error _ => .error .noMicroStep
  | .ok i    => micro i s

/-- The micro-step that SC names (R29, R112). -/
def microStep (debug : Bool) (s : State) : Micro :=
  match s.sc with
  | 0 => fetch debug s
  | 1 => decodeStep s
  | _ => executeStep s

/-- `tick(debug)` (R112, R277): while halted only the Info entry (R110), else exactly one micro-step (R107). -/
def tick (debug : Bool) (s : State) : Result :=
  if s.halted then .next (noticeHalted s) else settle s (microStep debug s)

/-- `n` ticks, `debug` false. -/
def ticks : Nat → State → Result
  | 0, s => .next s
  | n + 1, s =>
    match tick false s with
    | .next t    => ticks n t
    | .fault x   => .fault x
    | .refused x => .refused x

/-- The rest of the instruction in IR, from the current SC >= 2 on. -/
def finishInstruction (s : State) : Result :=
  match decode s.ir with
  | .ok i    => complete (micro i) 3 s
  | .error _ => .fault .unreachable

/-- The instruction in IR, from decode on (R101, R102). -/
def runDecoded (s : State) : Result :=
  match decode s.ir with
  | .ok i    => exec i s
  | .error _ => .next (takeError (.illegalOpcode s.ir (s.pc - 1)) s)

/-- One instruction (R100, R101, R103), that is, the ticks with `debug` false up to the next instruction boundary or to Halt
(log 3); in the middle of an instruction, the rest of it; while halted, one tick (R110). -/
def instructionStep (s : State) : Result :=
  if s.halted then tick false s
  else
    match s.sc with
    | 0 =>
      match fetch false s with
      | .ok t    => runDecoded t
      | .error x => takeStop s x
    | 1 => runDecoded s
    | _ => finishInstruction s

/-- The state with a word stored where the next fetch reads (R100): at the address in PC. A fetch needs SC = 0 and
Halted = 0 (log 4). -/
def placeWord (w : Word) (s : State) : State :=
  { s with mem := s.mem.setWord s.pc.toNat w, sc := 0, halted := false }

end Sys2Proof.Machine
end

