-- ==== Sys2Proof/Machine/Step.lean ====
section
/-! DEFINITION. One step of the machine as Host/Core.lean asks for it: one instruction (`instructionStep`, log 3). -/

namespace Sys2Proof.Machine

/-- One step: one instruction. -/
def step (s : State) : Host.Outcome State Fault Refusal := instructionStep s

/-- The state with an instruction, given by its table bits, stored where the next step fetches (log 4). -/
def State.withFetchWord (s : State) (nbits w : Nat) : State := placeWord (tableWord nbits w) s

end Sys2Proof.Machine
end

