-- ==== Sys2Proof/Machine/Assembler.lean ====
section
/-! DEFINITION. The two-pass assembler (spec/44_assembler.md): line model, literals, pass one, pass two. A pure function of the
source (R210, R236): it names no register and no memory. -/

namespace Sys2Proof.Machine

/-! ## Line model -/

/-- Tokens: maximal runs of non-whitespace characters (R16, R215). `cur` is the run read so far. -/
def tokensFrom (cur : Text) : Text → List Text
  | [] => if cur = [] then [] else [cur]
  | c :: cs =>
    if isBlank c then (if cur = [] then tokensFrom [] cs else cur :: tokensFrom [] cs)
    else tokensFrom (cur ++ [c]) cs

/-- The tokens of a text (R16). -/
def tokens (t : Text) : List Text := tokensFrom [] t

/-- The line without its comment: the first `/` and all after it removed (R212). -/
def withoutComment (l : Text) : Text := l.takeWhile (· != '/')

/-- A statement line: its label, its mnemonic, its operand and its indicator (R214, R215). -/
structure Statement where
  label     : Option Text
  mnemonic  : Text
  operand   : Option Text
  indicator : Option Text
  deriving DecidableEq, Repr

/-- What a line is: blank (R213), structurally wrong (R214, R215), or a statement. -/
inductive Line where
  | blank
  | bad
  | stmt (st : Statement)
  deriving DecidableEq, Repr

/-- The statement that a label and the body's tokens make (R215). -/
def bodyLine (label : Option Text) : List Text → Line
  | [m]       => .stmt ⟨label, m, none, none⟩
  | [m, o]    => .stmt ⟨label, m, some o, none⟩
  | [m, o, k] => .stmt ⟨label, m, some o, some k⟩
  | _         => .bad

/-- The line model (R212 to R215). The label is the text before the first `,`, without the whitespace around it; it is
non-empty and holds no whitespace exactly when that text is one token. -/
def parseLine (l : Text) : Line :=
  let rest := withoutComment l
  if rest.all isBlank then .blank
  else if rest.contains ',' then
    let body := (rest.dropWhile (· != ',')).drop 1
    match tokens (rest.takeWhile (· != ',')) with
    | [label] => if body.contains ',' then .bad else bodyLine (some label) (tokens body)
    | _       => .bad
  else bodyLine none (tokens rest)

/-! ## Literals -/

/-- The decimal digits, each at the place that is its value (R217: `0-9`). -/
def decDigits : Text := ['0', '1', '2', '3', '4', '5', '6', '7', '8', '9']

/-- The digits of value ten to fifteen in upper case (R217: `A-F`). -/
def upperDigits : Text := ['A', 'B', 'C', 'D', 'E', 'F']

/-- The digits of value ten to fifteen in lower case (R217: `a-f`). -/
def lowerDigits : Text := ['a', 'b', 'c', 'd', 'e', 'f']

/-- The value of a decimal digit: its place in the row of digits. -/
def decDigit (c : Char) : Option Nat := decDigits.idxOf? c

/-- The value of a hexadecimal digit: its place in the row of digits, in either spelling (R217). -/
def hexDigit (c : Char) : Option Nat :=
  match (decDigits ++ upperDigits).idxOf? c with
  | some d => some d
  | none   => (decDigits ++ lowerDigits).idxOf? c

/-- The unsigned number that digits spell after a first part of value `acc`, if all are digits. -/
def numeralFrom (digit : Char → Option Nat) (base acc : Nat) : Text → Option Nat
  | [] => some acc
  | c :: cs =>
    match digit c with
    | some d => numeralFrom digit base (acc * base + d) cs
    | none   => none

/-- One or more digits and nothing else (R217). -/
def numeral (digit : Char → Option Nat) (base : Nat) (t : Text) : Option Nat :=
  if t = [] then none else numeralFrom digit base 0 t

/-- A hexadecimal literal, of any length (R217). -/
def hexLiteral (t : Text) : Option Nat := numeral hexDigit 16 t

/-- A decimal literal: an optional single sign and digits (R217). -/
def decLiteral : Text → Option Int
  | '+' :: t => (numeral decDigit 10 t).map Int.ofNat
  | '-' :: t => (numeral decDigit 10 t).map fun n : Nat => -(n : Int)
  | t        => (numeral decDigit 10 t).map Int.ofNat

/-! ## Pass one -/

/-- An assembly error and the line it is about (R235). -/
abbrev AsmError := ErrorKind × Nat

/-- A word-producing line with its pass-one address (R218, R222). -/
structure PlacedLine where
  line : Nat
  addr : Addr
  stmt : Statement
  deriving DecidableEq, Repr

/-- What pass one has built: the location counter, ST, its errors and the lines pass two will encode. -/
structure PassOne where
  lc      : Nat
  symbols : List (Text × Addr)
  errors  : List AsmError
  placed  : List PlacedLine
  deriving DecidableEq, Repr

/-- Pass one before the first line (R211, R218). -/
def PassOne.start : PassOne := ⟨0, [], [], []⟩

/-- An error added, and nothing else. -/
def failLine (k : ErrorKind) (line : Nat) (p : PassOne) : PassOne := { p with errors := p.errors ++ [(k, line)] }

/-- ORG (R221): no label, exactly one operand, a hexadecimal literal of at most 0xFFF. -/
def passOneOrg (line : Nat) (st : Statement) (p : PassOne) : PassOne :=
  match st.label, st.operand, st.indicator with
  | none, some o, none =>
    match hexLiteral o with
    | none   => failLine .syntaxError line p
    | some v => if v < Config.memWords then { p with lc := v } else failLine .operandOutOfRange line p
  | _, _, _ => failLine .syntaxError line p

/-- Label binding (R223): the first binding stays. -/
def bindLabel (line : Nat) (label : Option Text) (a : Addr) (p : PassOne) : PassOne :=
  match label with
  | none => p
  | some l =>
    match p.symbols.lookup l with
    | some _ => failLine .duplicateLabel line p
    | none   => { p with symbols := p.symbols ++ [(l, a)] }

/-- A word-producing line (R222, R223), or one beyond the top of the address space (R224). -/
def passOneWord (line : Nat) (st : Statement) (p : PassOne) : PassOne :=
  if p.lc < Config.memWords then
    let a := BitVec.ofNat 12 p.lc
    let q := bindLabel line st.label a p
    { q with lc := p.lc + 1, placed := q.placed ++ [⟨line, a, st⟩] }
  else { failLine .addressOutOfRange line p with lc := p.lc + 1 }

/-- END (R220): an error if it has a label or an operand; it ends the scan either way. -/
def passOneEnd (line : Nat) (st : Statement) (p : PassOne) : PassOne :=
  if st.label = none ∧ st.operand = none then p else failLine .syntaxError line p

/-- Pass one (R218 to R224), from line number `line` on. -/
def passOneFrom (line : Nat) (p : PassOne) : List Text → PassOne
  | [] => p
  | l :: ls =>
    match parseLine l with
    | .blank => passOneFrom (line + 1) p ls
    | .bad   => passOneFrom (line + 1) (failLine .syntaxError line p) ls
    | .stmt st =>
      if st.mnemonic = "END".toList then passOneEnd line st p
      else if st.mnemonic = "ORG".toList then passOneFrom (line + 1) (passOneOrg line st p) ls
      else passOneFrom (line + 1) (passOneWord line st p) ls

/-- Pass one over a source program (R218). -/
def passOne (source : List Text) : PassOne := passOneFrom 0 PassOne.start source

/-! ## Pass two -/

/-- The indirect flag that the indicator gives: present and exactly `I`, or absent (R227). -/
def indirectOf : Option Text → Option Bool
  | none   => some false
  | some t => if t = ['I'] then some true else none

/-- An MRI line (R227): shape, then symbol. -/
def encodeMriLine (symbols : List (Text × Addr)) (st : Statement) : Except ErrorKind Word :=
  match st.operand, indirectOf st.indicator with
  | some o, some ind =>
    match symbols.lookup o with
    | none   => .error .undefinedSymbol
    | some a =>
      match mriNamed st.mnemonic ind a with
      | some i => .ok (encode i)
      | none   => .error .unknownMnemonic
  | _, _ => .error .syntaxError

/-- A register-reference or I/O line (R228): no operand and no indicator. -/
def encodeFixedLine (i : Instr) (st : Statement) : Except ErrorKind Word :=
  if st.operand = none ∧ st.indicator = none then .ok (encode i) else .error .syntaxError

/-- A DEC line (R229): shape, form, range -32768..32767; `word <- v mod 65536`. -/
def encodeDecLine (st : Statement) : Except ErrorKind Word :=
  match st.operand, st.indicator with
  | some o, none =>
    match decLiteral o with
    | none   => .error .syntaxError
    | some v => if -32768 ≤ v ∧ v ≤ 32767 then .ok (BitVec.ofInt 16 v) else .error .operandOutOfRange
  | _, _ => .error .syntaxError

/-- A HEX line (R230): shape, form, range up to 0xFFFF. -/
def encodeHexLine (st : Statement) : Except ErrorKind Word :=
  match st.operand, st.indicator with
  | some o, none =>
    match hexLiteral o with
    | none   => .error .syntaxError
    | some v => if v ≤ 0xFFFF then .ok (BitVec.ofNat 16 v) else .error .operandOutOfRange
  | _, _ => .error .syntaxError

/-- Is it the mnemonic of a memory-reference instruction (R75)? -/
def isMriName (m : Text) : Bool := (mriNamed m false 0).isSome

/-- One line of pass two: its word, or its one error, the first failing check (R226, R231, R232). -/
def encodeLine (symbols : List (Text × Addr)) (st : Statement) : Except ErrorKind Word :=
  if isMriName st.mnemonic then encodeMriLine symbols st
  else
    match fixedNamed st.mnemonic with
    | some i => encodeFixedLine i st
    | none =>
      if st.mnemonic = "DEC".toList then encodeDecLine st
      else if st.mnemonic = "HEX".toList then encodeHexLine st
      else .error .unknownMnemonic

/-- The AssembledProgram: one pair for each line that encodes, in source order (R226, R233). -/
def passTwoProgram (symbols : List (Text × Addr)) : List PlacedLine → List (Addr × Word)
  | [] => []
  | p :: ps =>
    match encodeLine symbols p.stmt with
    | .ok w    => (p.addr, w) :: passTwoProgram symbols ps
    | .error _ => passTwoProgram symbols ps

/-- The errors of pass two: one for each line that does not encode, in source order (R226, R232). -/
def passTwoErrors (symbols : List (Text × Addr)) : List PlacedLine → List AsmError
  | [] => []
  | p :: ps =>
    match encodeLine symbols p.stmt with
    | .ok _    => passTwoErrors symbols ps
    | .error k => (k, p.line) :: passTwoErrors symbols ps

/-! ## Result -/

/-- What the assembler produces: ST, AP and the errors of pass one followed by those of pass two (R210, R235). -/
structure Assembled where
  symbols : List (Text × Addr)
  program : List (Addr × Word)
  errors  : List AsmError
  deriving DecidableEq, Repr

/-- The assembler (R210), from an empty ST and AP (R211). -/
def assembleSource (source : List Text) : Assembled :=
  let p := passOne source
  ⟨p.symbols, passTwoProgram p.symbols p.placed, p.errors ++ passTwoErrors p.symbols p.placed⟩

/-- The Error entry of an assembly error (R235, R300). -/
def asmErrorEntry (x : AsmError) : Entry := ⟨.error, .assembler, .error x.1, .sourceLine x.2⟩

/-- An Info or Debug entry of the assembler (R235, R290). -/
def progressEntry (n : ProgressNote) : Entry :=
  ⟨if n.debug then .debug else .info, .assembler, .other, .progress n.detail⟩

/-- The Error entries in order, with the open Info and Debug entries of the source around them (R235, U3);
`place` is the number of errors already passed. -/
def interleave (source : List Text) (place : Nat) : List AsmError → List Entry
  | [] => (Config.assemblerNotes source place).map progressEntry
  | x :: xs => (Config.assemblerNotes source place).map progressEntry ++ asmErrorEntry x :: interleave source (place + 1) xs

/-- The diagnostics of assembling a source program (R210, R235). -/
def assemblerEntries (source : List Text) : List Entry := interleave source 0 (assembleSource source).errors

end Sys2Proof.Machine
end

