-- ==== Sys2Proof/Machine/HostOps.lean ====
section
/-! DEFINITION. The host's five operations (spec/45_host_interface.md). A host is a sequence of calls (R270): overlapping
calls cannot be written. And what the end of a run is (R282). -/

namespace Sys2Proof.Machine

/-- The snapshot `state()` returns (R38): every register of R20 and all 4096 memory words, word `a` at place `a`. -/
structure Snapshot where
  ac : Word
  ar : Addr
  dr : Word
  ir : Word
  pc : Addr
  tr : Word
  e : Bit
  sc : Nat
  halted : Bool
  inpr : IoByte
  outr : IoByte
  fgi : Bit
  fgo : Bit
  ien : Bit
  words : List Word
  deriving DecidableEq, Repr

/-- A host operation (R270). -/
inductive HostOp where
  | loadProgram (lines : List Text)
  | assemble
  | tick (debug : Bool)
  | state
  | reset
  deriving DecidableEq, Repr

/-- What a host operation returns: nothing to read (`load_program`'s success value, `reset`), the entries it emitted,
or the snapshot. -/
inductive HostReply where
  | done
  | entries (es : List Entry)
  | snapshot (v : Snapshot)
  deriving DecidableEq, Repr

/-- `load_program(lines)` (R272): SourceProgram installed, ST and AP cleared. -/
def loadProgram (lines : List Text) (s : State) : State :=
  { s with source := lines, symbols := [], program := [] }

/-- Memory after the program load (R274): `MemWrite(a, 1, w)` for each pair in order. A write out of range stores nothing
(R52); there is none, since every address of AP has 12 bits (R224). -/
def loadPairs : List (Addr × Word) → Memory → Memory
  | [], m => m
  | (a, w) :: rest, m =>
    match memWrite m a.toNat w with
    | .ok m'   => loadPairs rest m'
    | .error _ => loadPairs rest m

/-- `assemble()` (R273, R274): ST and AP written, AP loaded into memory whatever the errors, diagnostics appended. -/
def assemble (s : State) : State :=
  let r := assembleSource s.source
  { s with symbols := r.symbols, program := r.program, mem := loadPairs r.program s.mem,
           log := s.log ++ assemblerEntries s.source }

/-- `state()` (R38, R278). -/
def snapshot (s : State) : Snapshot :=
  { ac := s.ac, ar := s.ar, dr := s.dr, ir := s.ir, pc := s.pc, tr := s.tr, e := s.e, sc := s.sc, halted := s.halted,
    inpr := s.inpr, outr := s.outr, fgi := s.fgi, fgo := s.fgo, ien := s.ien,
    words := (List.range Config.memWords).map s.mem.word }

/-- The state after a host operation (R272 to R279), the same at every SC (R281). -/
def hostCall : HostOp → State → Result
  | .loadProgram lines, s => .next (loadProgram lines s)
  | .assemble, s => .next (assemble s)
  | .tick debug, s => tick debug s
  | .state, s => .next s
  | .reset, s => .next (resetCore s)

/-- What a host operation that took `before` to `after` returns to the caller (R272, R273, R277, R278, R279). -/
def hostReply : HostOp → State → State → HostReply
  | .loadProgram _, _, _ => .done
  | .assemble, before, after => .entries (returned before after)
  | .tick _, before, after => .entries (returned before after)
  | .state, before, _ => .snapshot (snapshot before)
  | .reset, _, _ => .done

/-- A sequence of host operations (R270), stopping at the first fault or refusal. -/
def hostRun : List HostOp → State → Result
  | [], s => .next s
  | op :: ops, s =>
    match hostCall op s with
    | .next t    => hostRun ops t
    | .fault x   => .fault x
    | .refused x => .refused x

/-! ## The end of a run -/

/-- An instruction boundary (R18): the next tick fetches. -/
def atBoundary (s : State) : Bool := s.sc == 0 && !s.halted

/-- The first state with Halted = 1 among `s` and the states after each of the calls `tick(debug)` listed, if there is one. -/
def firstHalted : List Bool → State → Option State
  | debugs, s =>
    if s.halted then some s
    else
      match debugs with
      | [] => none
      | debug :: later =>
        match tick debug s with
        | .next t    => firstHalted later t
        | .fault _   => none
        | .refused _ => none

/-- `t` is the end state of a run from the boundary state `s` (R282): the first state with Halted = 1 reached by ticks alone. -/
def IsEndState (s t : State) : Prop := atBoundary s = true ∧ ∃ debugs, firstHalted debugs s = some t

/-- The claim that the run from the boundary state `s` ends. -/
def Ends (s : State) : Prop := ∃ t, IsEndState s t

/-- A run from the boundary state `s` that never reaches Halted = 1 (R282): it goes on at every tick, and has no end state. -/
def Endless (s : State) : Prop :=
  atBoundary s = true ∧ ∀ debugs : List Bool, ∃ t, hostRun (debugs.map .tick) s = .next t ∧ t.halted = false

end Sys2Proof.Machine
end

