-- ==== Sys2Proof/Safety.lean ====
section
/-! DEFINITION. What a safe run is: the invariant of the states that the rules reach from construction, and the states
reached by host operations. -/

namespace Sys2Proof.Machine

/-- The instruction has a micro-step at this SC (R105): from 2 to its last one. -/
def hasMicroStep (i : Instr) (n : Nat) : Bool := 2 ≤ n && n ≤ lastSc i

/-- The sequence counter names a micro-step that exists (R104, R105): an instruction boundary, decode, or a micro-step of the
instruction in IR. -/
def sequenced (s : State) : Bool :=
  s.sc ≤ 1 ||
    match decode s.ir with
    | .ok i    => hasMicroStep i s.sc
    | .error _ => false

/-- How Halt is left standing (R102, R104, R172): SC = 0 after HLT, or SC = 1 with an illegal word in IR. -/
def haltState (s : State) : Bool :=
  s.sc == 0 ||
    s.sc == 1 &&
      match decode s.ir with
      | .ok _    => false
      | .error _ => true

/-- The invariant of the machine. -/
structure State.Inv (s : State) : Prop where
  /-- memory is in canonical form, every listed address in range (R35, R61) -/
  memWf : s.mem.wf = true
  /-- SC is in 0..4 (R29, R104) -/
  scRange : s.sc ≤ Config.scMax
  /-- a running machine is at a micro-step that exists (R105) -/
  running : s.halted = false → sequenced s = true
  /-- a halted machine stands as HLT or an illegal word left it (R104) -/
  stopped : s.halted = true → haltState s = true
  /-- TR keeps its reset value (R27) -/
  trZero : s.tr = 0
  /-- no input ever arrives (R31) -/
  inprZero : s.inpr = 0
  /-- FGI is never set (R32) -/
  fgiZero : s.fgi = 0
  /-- FGO is never set (R32) -/
  fgoZero : s.fgo = 0
  /-- the symbol table holds labels, each once (R36) -/
  symbolsWf : symbolsWellFormed s.symbols = true

/-- The states reached from construction by host operations (R19, R270). -/
inductive Reachable : State → Prop where
  | construct : Reachable State.reset
  | call (op : HostOp) (s t : State) : Reachable s → hostCall op s = .next t → Reachable t

end Sys2Proof.Machine
end

