-- ==== Sys2Proof/Certificates/Slice0/Obligations.lean ====
section
/-! DEFINITION. What is claimed about the model: one `def Obligations.<Name> : Prop` per statement, and the few words they are
written with. "log n" is notes/assumptions/n.md; "Dn" is a decision of spec/92_eei_decisions.md, which the numbered
rule named beside it marks as the spec's own choice (log 7). -/

open Sys2Proof Sys2Proof.Machine

namespace Sys2Proof.Claims

/-- Every register and every memory word is 0, Halted is 0 and the log is empty. -/
def allZero (s : State) : Prop :=
  s.ac = 0 ∧ s.dr = 0 ∧ s.tr = 0 ∧ s.ir = 0 ∧ s.ar = 0 ∧ s.pc = 0 ∧ s.e = 0 ∧ s.sc = 0 ∧ s.halted = false ∧
  s.inpr = 0 ∧ s.outr = 0 ∧ s.fgi = 0 ∧ s.fgo = 0 ∧ s.ien = 0 ∧ (∀ a, s.mem.word a = 0) ∧ s.log = []

/-- Two answers agree, where two next states agree when `forget` makes them equal. -/
def sameUpTo (forget : State → State) : Result → Result → Prop
  | .next t, .next u       => forget t = forget u
  | .fault x, .fault y     => x = y
  | .refused x, .refused y => x = y
  | _, _                   => False

/-- The state without IEN and TR. -/
def forgetIenTr (s : State) : State := { s with ien := 0, tr := 0 }

/-- The state without SourceProgram, ST, AP and the log. -/
def forgetProgramData (s : State) : State := { s with source := [], symbols := [], program := [], log := [] }

/-- All 14 registers and the terminal flag agree (R20). -/
def sameRegisters (s t : State) : Prop :=
  t.ac = s.ac ∧ t.dr = s.dr ∧ t.tr = s.tr ∧ t.ir = s.ir ∧ t.ar = s.ar ∧ t.pc = s.pc ∧ t.e = s.e ∧ t.sc = s.sc ∧
  t.halted = s.halted ∧ t.inpr = s.inpr ∧ t.outr = s.outr ∧ t.fgi = s.fgi ∧ t.fgo = s.fgo ∧ t.ien = s.ien

/-- SourceProgram, ST, AP and the log agree. -/
def sameProgramData (s t : State) : Prop :=
  t.source = s.source ∧ t.symbols = s.symbols ∧ t.program = s.program ∧ t.log = s.log

/-- The instruction `i`, run `n` times in a row. -/
def execTimes (i : Instr) : Nat → State → Result
  | 0, s => .next s
  | n + 1, s =>
    match exec i s with
    | .next t    => execTimes i n t
    | .fault x   => .fault x
    | .refused x => .refused x

/-- The lines with the label `l` that pass one gives an address to, in source order. -/
def linesLabelled (source : List Text) (l : Text) : List PlacedLine :=
  (passOne source).placed.filter fun p => p.stmt.label == some l

/-- The hexadecimal digits of R217 and their values. -/
def hexDigitValues : List (Char × Nat) :=
  [('0', 0), ('1', 1), ('2', 2), ('3', 3), ('4', 4), ('5', 5), ('6', 6), ('7', 7), ('8', 8), ('9', 9)] ++
  [('A', 10), ('B', 11), ('C', 12), ('D', 13), ('E', 14), ('F', 15)] ++
  [('a', 10), ('b', 11), ('c', 12), ('d', 13), ('e', 14), ('f', 15)]

end Sys2Proof.Claims

open Sys2Proof.Claims

/-! ## Reset and the invariant -/

/-- R330: `reset()`, from every state, and construction leave every register and every memory word at 0, Halted at 0, and the log
empty. -/
def Obligations.ResetAndConstructionZeroEverything : Prop :=
  (∀ s : State, ∃ t, hostCall .reset s = .next t ∧ allZero t) ∧ allZero State.reset

/-- The reset state meets the invariant. -/
def Obligations.ResetStateMeetsInv : Prop := State.reset.Inv

/-- From every state that meets the invariant a step answers a next state, and that state meets it again. -/
def Obligations.EveryStepKeepsInv : Prop :=
  (∀ s t : State, s.Inv → step s = .next t → t.Inv) ∧ ∀ s : State, s.Inv → ∃ t, step s = .next t

/-- Every host operation, a tick among them, answers a state that meets the invariant, from every state that meets it:
in particular no tick of such a state faults (R105). -/
def Obligations.HostOperationsKeepInv : Prop :=
  ∀ (op : HostOp) (s : State), s.Inv → ∃ t, hostCall op s = .next t ∧ t.Inv

/-- R105: the states without a micro-step are "not reachable from reset by the rules": in every state that host operations
reach from construction, a tick and a step answer a next state, and TR, INPR, FGI and FGO are still 0 (R27, R31, R32). -/
def Obligations.ReachableStatesNeverFault : Prop :=
  ∀ s : State, Reachable s →
    (∀ debug, ∃ t, tick debug s = .next t) ∧ (∃ t, step s = .next t) ∧
    s.tr = 0 ∧ s.inpr = 0 ∧ s.fgi = 0 ∧ s.fgo = 0

/-! ## The cycle -/

/-- R100 and R108 (D5): the fetch tick, with and without the debug entry. -/
def Obligations.FetchTick : Prop :=
  ∀ s : State, s.halted = false → s.sc = 0 →
    tick false s = .next { s with ar := s.pc, ir := s.mem.word s.pc.toNat, pc := s.pc + 1, sc := 1 } ∧
    tick true s = .next { s with ar := s.pc, ir := s.mem.word s.pc.toNat, pc := s.pc + 1, sc := 1,
                                 log := s.log ++ [⟨.debug, .engine, .fetch, .fetched s.pc (s.mem.word s.pc.toNat)⟩] }

/-- R101 (D6): the decode tick of a legal word. AR takes IR[11:0]; for a memory-reference word with IR[15] = 1, the low 12 bits
of the word there. -/
def Obligations.DecodeTick : Prop :=
  ∀ (debug : Bool) (s : State) (i : Instr), s.halted = false → s.sc = 1 → decode s.ir = .ok i →
    (isMri i = true → s.ir.getLsbD 15 = true →
      tick debug s = .next { s with ar := (s.mem.word (s.ir.setWidth 12).toNat).setWidth 12, sc := 2 }) ∧
    (isMri i = false ∨ s.ir.getLsbD 15 = false → tick debug s = .next { s with ar := s.ir.setWidth 12, sc := 2 })

/-- R102 and R302 (D7): an illegal word halts at decode, with one Error entry and no other change; from an instruction boundary
it takes two ticks, and a step answers the same state. -/
def Obligations.IllegalWordHaltsAtDecode : Prop :=
  (∀ (debug : Bool) (s : State), s.halted = false → s.sc = 1 → decode s.ir = .error (.illegalOpcode s.ir) →
    tick debug s = .next { s with halted := true,
                                  log := s.log ++ [⟨.error, .engine, .error .illegalOpcode, .illegalWord s.ir (s.pc - 1)⟩] }) ∧
  (∀ s : State, s.halted = false → s.sc = 0 →
    decode (s.mem.word s.pc.toNat) = .error (.illegalOpcode (s.mem.word s.pc.toNat)) →
    step s = ticks 2 s ∧
    step s = .next { s with ar := s.pc, ir := s.mem.word s.pc.toNat, pc := s.pc + 1, sc := 1, halted := true,
                            log := s.log ++ [⟨.error, .engine, .error .illegalOpcode,
                                              .illegalWord (s.mem.word s.pc.toNat) s.pc⟩] })

/-- R110: while halted a tick adds one Info entry and changes nothing else, whatever `debug` is, and any number of ticks leaves
the snapshot as it is and adds one Info entry each and no Error. -/
def Obligations.TicksWhileHaltedOnlyNotify : Prop :=
  ∀ s : State, s.halted = true →
    (∀ debug, tick debug s = .next { s with log := s.log ++ [⟨.info, .engine, .alreadyHalted, .halted⟩] }) ∧
    (∀ n, ∃ t, ticks n s = .next t ∧ snapshot t = snapshot s ∧
      t.log = s.log ++ List.replicate n ⟨.info, .engine, .alreadyHalted, .halted⟩)

/-- R30 and R109: Halted is set by HLT and by a runtime error, by nothing else in a tick, and cleared only by `reset()`;
while it is 1 a tick changes no register and no memory word. -/
def Obligations.HaltedIsSetAndClearedAsStated : Prop :=
  (∀ (debug : Bool) (s t : State), s.halted = false → tick debug s = .next t →
    (t.halted = true ↔
      (s.sc = 2 ∧ decode s.ir = .ok .hlt) ∨ (s.sc = 1 ∧ decode s.ir = .error (.illegalOpcode s.ir)))) ∧
  (∀ (x : RuntimeError) (s : State), (takeError x s).halted = true) ∧
  (∀ (op : HostOp) (s t : State), s.halted = true → hostCall op s = .next t → (t.halted = false ↔ op = .reset)) ∧
  (∀ (debug : Bool) (s t : State), s.halted = true → tick debug s = .next t →
    sameRegisters s t ∧ t.mem = s.mem ∧ t.source = s.source ∧ t.symbols = s.symbols ∧ t.program = s.program)

/-- R308: no sequence of host operations without `reset()` clears Halted; once Halted = 1 a tick writes no memory and raises no
error; `reset()` leaves Halt, with all registers and memory zeroed. That `load_program`, `assemble` and `state` write no register
either is R272, R275, R276 (D26, D12, D9); what a tick returned is the new part of the log (log 5). -/
def Obligations.HaltIsLeftOnlyByReset : Prop :=
  (∀ (ops : List HostOp) (s : State), s.halted = true → HostOp.reset ∉ ops →
    ∃ t, hostRun ops s = .next t ∧ t.halted = true ∧ sameRegisters s t) ∧
  (∀ (debug : Bool) (s : State), s.halted = true →
    ∃ t, tick debug s = .next t ∧ t.mem = s.mem ∧ ∀ x ∈ returned s t, x.level ≠ .error) ∧
  (∀ s : State, ∃ t, hostCall .reset s = .next t ∧ t.halted = false ∧ allZero t)

/-- R105 (D4): a tick faults exactly when Halted = 0, SC >= 2 and the instruction in IR has no micro-step at that SC. -/
def Obligations.TickFaultsExactlyWithoutMicroStep : Prop :=
  ∀ (debug : Bool) (s : State),
    tick debug s = .fault .unreachable ↔
      s.halted = false ∧ 2 ≤ s.sc ∧ ∀ i, decode s.ir = .ok i → lastSc i < s.sc

/-- R104: what a tick does to SC. -/
def Obligations.SequenceCounterDiscipline : Prop :=
  ∀ (debug : Bool) (s t : State), s.halted = false → tick debug s = .next t →
    (s.sc = 0 → t.sc = 1) ∧
    (s.sc = 1 → (t.sc = 2 ∧ t.halted = false) ∨ (t.sc = 1 ∧ t.halted = true)) ∧
    (2 ≤ s.sc → t.sc = s.sc + 1 ∨ t.sc = 0)

/-- R293 and R53: a tick emits nothing, or exactly one entry: the debug entry of a fetch, an IllegalOpcode error, or the notice
of a halted engine; never AddressOutOfRange. -/
def Obligations.TickEmitsAtMostOneEntry : Prop :=
  ∀ (debug : Bool) (s t : State), tick debug s = .next t →
    (t.log = s.log ∧ s.halted = false) ∨
    (∃ a w, t.log = s.log ++ [⟨.debug, .engine, .fetch, .fetched a w⟩] ∧ s.halted = false ∧ s.sc = 0 ∧ debug = true) ∨
    (∃ w a, t.log = s.log ++ [⟨.error, .engine, .error .illegalOpcode, .illegalWord w a⟩] ∧ s.halted = false ∧ s.sc = 1) ∨
    (t.log = s.log ++ [⟨.info, .engine, .alreadyHalted, .halted⟩] ∧ s.halted = true)

/-- R106 (D4) and log 3: at an instruction boundary with a legal word at PC, a step is the ticks of that instruction, with the
number of ticks of R106, and in between SC counts them. -/
def Obligations.StepIsTheTicksOfItsInstruction : Prop :=
  (∀ (s : State) (i : Instr), s.halted = false → s.sc = 0 → decode (s.mem.word s.pc.toNat) = .ok i →
    step s = ticks (ticksOf i) s ∧
    ∀ k, 0 < k → k < ticksOf i → ∃ t, ticks k s = .next t ∧ t.sc = k ∧ t.halted = false) ∧
  (∀ ind addr, ticksOf (.and ind addr) = 4 ∧ ticksOf (.add ind addr) = 4 ∧ ticksOf (.lda ind addr) = 4 ∧
    ticksOf (.sta ind addr) = 3 ∧ ticksOf (.bun ind addr) = 3 ∧ ticksOf (.bsa ind addr) = 4 ∧ ticksOf (.isz ind addr) = 5) ∧
  (∀ i, isMri i = false → ticksOf i = 3)

/-- When the word at PC decodes to an instruction, a step at an instruction boundary is exec of it in the state that the fetch
leaves: AR the old PC, IR the word, PC moved on by one, SC = 1 (R100, log 3). -/
def Obligations.StepRunsDecodedInstruction : Prop :=
  ∀ (s : State) (i : Instr), s.halted = false → s.sc = 0 → decode (s.mem.word s.pc.toNat) = .ok i →
    step s = exec i { s with ar := s.pc, ir := s.mem.word s.pc.toNat, pc := s.pc + 1, sc := 1 }

/-! ## Memory-reference instructions -/

/-- R131 to R137 (D3, D4, D31), tick by tick. AND, ADD, LDA: the operand into DR, then the result. STA: AC stored at AR. BUN: AR
into PC. BSA: PC stored at the old AR and AR incremented, then AR into PC. ISZ: the operand into DR, DR incremented, then DR
stored and a skip if it is 0. -/
def Obligations.MemoryReferenceTickByTick : Prop :=
  ∀ (debug : Bool) (ind : Bool) (addr : Addr) (s : State), s.halted = false →
    (decode s.ir = .ok (.and ind addr) ∨ decode s.ir = .ok (.add ind addr) ∨ decode s.ir = .ok (.lda ind addr) ∨
        decode s.ir = .ok (.isz ind addr) → s.sc = 2 →
      tick debug s = .next { s with dr := s.mem.word s.ar.toNat, sc := 3 }) ∧
    (decode s.ir = .ok (.and ind addr) → s.sc = 3 → tick debug s = .next { s with ac := s.ac &&& s.dr, sc := 0 }) ∧
    (decode s.ir = .ok (.add ind addr) → s.sc = 3 →
      tick debug s = .next { s with ac := s.ac + s.dr, e := BitVec.ofNat 1 ((s.ac.toNat + s.dr.toNat) / 65536), sc := 0 }) ∧
    (decode s.ir = .ok (.lda ind addr) → s.sc = 3 → tick debug s = .next { s with ac := s.dr, sc := 0 }) ∧
    (decode s.ir = .ok (.sta ind addr) → s.sc = 2 →
      tick debug s = .next { s with mem := s.mem.setWord s.ar.toNat s.ac, sc := 0 }) ∧
    (decode s.ir = .ok (.bun ind addr) → s.sc = 2 → tick debug s = .next { s with pc := s.ar, sc := 0 }) ∧
    (decode s.ir = .ok (.bsa ind addr) → s.sc = 2 →
      tick debug s = .next { s with mem := s.mem.setWord s.ar.toNat (BitVec.ofNat 16 s.pc.toNat), ar := s.ar + 1, sc := 3 }) ∧
    (decode s.ir = .ok (.bsa ind addr) → s.sc = 3 → tick debug s = .next { s with pc := s.ar, sc := 0 }) ∧
    (decode s.ir = .ok (.isz ind addr) → s.sc = 3 → tick debug s = .next { s with dr := s.dr + 1, sc := 4 }) ∧
    (decode s.ir = .ok (.isz ind addr) → s.sc = 4 → s.dr = 0 →
      tick debug s = .next { s with mem := s.mem.setWord s.ar.toNat 0, pc := s.pc + 1, sc := 0 }) ∧
    (decode s.ir = .ok (.isz ind addr) → s.sc = 4 → s.dr ≠ 0 →
      tick debug s = .next { s with mem := s.mem.setWord s.ar.toNat s.dr, sc := 0 })

/-- R78: the effective address is the address field when direct, and when indirect the low 12 bits of the word it points to,
whatever that word's bits 15..12 are (R79); it always exists (R53). -/
def Obligations.EffectiveAddressIsOneLevel : Prop :=
  ∀ (m : Memory) (addr : Addr),
    effectiveAddress m addr false = .ok addr ∧
    ∃ a, effectiveAddress m addr true = .ok a ∧ a.toNat = (m.word addr.toNat).toNat % 4096

/-- AND, ADD and LDA (R131, R132, R133; D3, D4) in every state, direct and indirect: the whole next state. -/
def Obligations.AndAddLdaResults : Prop :=
  ∀ (ind : Bool) (addr : Addr) (s : State), ∃ a, effectiveAddress s.mem addr ind = .ok a ∧
    exec (.and ind addr) s =
      .next { s with ar := a, dr := s.mem.word a.toNat, ac := s.ac &&& s.mem.word a.toNat, sc := 0 } ∧
    exec (.add ind addr) s =
      .next { s with ar := a, dr := s.mem.word a.toNat, ac := s.ac + s.mem.word a.toNat,
                     e := BitVec.ofNat 1 ((s.ac.toNat + (s.mem.word a.toNat).toNat) / 65536), sc := 0 } ∧
    exec (.lda ind addr) s = .next { s with ar := a, dr := s.mem.word a.toNat, ac := s.mem.word a.toNat, sc := 0 }

/-- STA, BUN and BSA (R134, R135, R136; D3, D4) in every state, direct and indirect: the whole next state, and in a canonical
memory the word stored is read back. -/
def Obligations.StaBunBsaResults : Prop :=
  ∀ (ind : Bool) (addr : Addr) (s : State), ∃ a, effectiveAddress s.mem addr ind = .ok a ∧
    exec (.sta ind addr) s = .next { s with ar := a, mem := s.mem.setWord a.toNat s.ac, sc := 0 } ∧
    exec (.bun ind addr) s = .next { s with ar := a, pc := a, sc := 0 } ∧
    exec (.bsa ind addr) s =
      .next { s with ar := a + 1, pc := a + 1, mem := s.mem.setWord a.toNat (BitVec.ofNat 16 s.pc.toNat), sc := 0 } ∧
    (s.mem.wf = true → ∀ v, (s.mem.setWord a.toNat v).word a.toNat = v)

/-- ISZ (R137; D3, D4, D31) in every state, direct and indirect: the whole next state. -/
def Obligations.IszResult : Prop :=
  ∀ (ind : Bool) (addr : Addr) (s : State), ∃ a, effectiveAddress s.mem addr ind = .ok a ∧
    ((s.mem.word a.toNat).toNat = 0xFFFF →
      exec (.isz ind addr) s = .next { s with ar := a, dr := 0, mem := s.mem.setWord a.toNat 0, pc := s.pc + 1, sc := 0 }) ∧
    ((s.mem.word a.toNat).toNat ≠ 0xFFFF →
      exec (.isz ind addr) s =
        .next { s with ar := a, dr := s.mem.word a.toNat + 1, mem := s.mem.setWord a.toNat (s.mem.word a.toNat + 1), sc := 0 })

/-- The frame of the memory-reference instructions that store nothing: AND, ADD, LDA, BUN. AR and SC change in all (R101),
DR and AC in AND, ADD and LDA, E in ADD, PC in BUN. -/
def Obligations.NonStoringMemoryReferenceFrame : Prop :=
  ∀ (ind : Bool) (addr : Addr) (i : Instr) (s t : State),
    i = .and ind addr ∨ i = .add ind addr ∨ i = .lda ind addr ∨ i = .bun ind addr → exec i s = .next t →
    t.tr = s.tr ∧ t.ir = s.ir ∧ t.halted = s.halted ∧ t.inpr = s.inpr ∧ t.outr = s.outr ∧ t.fgi = s.fgi ∧ t.fgo = s.fgo ∧
    t.ien = s.ien ∧ (i ≠ .add ind addr → t.e = s.e) ∧ (i = .bun ind addr → t.ac = s.ac ∧ t.dr = s.dr) ∧
    (i ≠ .bun ind addr → t.pc = s.pc) ∧ (∀ b, t.mem.word b = s.mem.word b) ∧ sameProgramData s t

/-- The frame of the storing instructions STA, BSA, ISZ: every word but the one at the effective address keeps its value. AR and
SC change in all (R101), DR in ISZ, PC in BSA and ISZ. -/
def Obligations.StoringFrame : Prop :=
  ∀ (ind : Bool) (addr a : Addr) (i : Instr) (s t : State),
    i = .sta ind addr ∨ i = .bsa ind addr ∨ i = .isz ind addr → effectiveAddress s.mem addr ind = .ok a →
    exec i s = .next t →
    t.ac = s.ac ∧ t.tr = s.tr ∧ t.ir = s.ir ∧ t.e = s.e ∧ t.halted = s.halted ∧ t.inpr = s.inpr ∧ t.outr = s.outr ∧
    t.fgi = s.fgi ∧ t.fgo = s.fgo ∧ t.ien = s.ien ∧ (i ≠ .isz ind addr → t.dr = s.dr) ∧
    (i = .sta ind addr → t.pc = s.pc) ∧ (∀ b, b ≠ a.toNat → t.mem.word b = s.mem.word b) ∧ sameProgramData s t

/-- The calling convention of R136 (D3): `BSA a` continues at `a + 1`, and `BUN a I` in any later state whose memory is unchanged
returns to the word after the BSA. -/
def Obligations.SubroutineCallReturns : Prop :=
  ∀ (addr : Addr) (s t u v : State), s.mem.wf = true → exec (.bsa false addr) s = .next t → u.mem = t.mem →
    exec (.bun true addr) u = .next v → t.pc = addr + 1 ∧ v.pc = s.pc

/-- R64 and R336: what STA, BSA or ISZ stores is what the next fetch of that address reads, and the store does not change IR. -/
def Obligations.StoredWordIsFetched : Prop :=
  ∀ (ind : Bool) (addr a : Addr) (s t : State), s.mem.wf = true → s.halted = false →
    effectiveAddress s.mem addr ind = .ok a →
    (exec (.sta ind addr) s = .next t → t.ir = s.ir ∧ ∃ u, tick false { t with pc := a } = .next u ∧ u.ir = s.ac) ∧
    (exec (.bsa ind addr) s = .next t → t.ir = s.ir ∧
      ∃ u, tick false { t with pc := a } = .next u ∧ u.ir.toNat = s.pc.toNat) ∧
    (exec (.isz ind addr) s = .next t → t.ir = s.ir ∧
      ∃ u, tick false { t with pc := a } = .next u ∧ u.ir = s.mem.word a.toNat + 1)

/-! ## Register-reference and input/output instructions -/

/-- CLA, CLE, CMA, CME, CIR, CIL and INC (R161 to R167; D3) in every state: the whole next state. AR keeps the word's low
12 bits from decode (D6). -/
def Obligations.AccumulatorAndCarryResults : Prop :=
  ∀ s : State,
    exec .cla s = .next { s with ar := 0x800#12, ac := 0, sc := 0 } ∧
    exec .cle s = .next { s with ar := 0x400#12, e := 0, sc := 0 } ∧
    exec .cma s = .next { s with ar := 0x200#12, ac := BitVec.ofNat 16 (65535 - s.ac.toNat), sc := 0 } ∧
    exec .cme s = .next { s with ar := 0x100#12, e := BitVec.ofNat 1 (1 - s.e.toNat), sc := 0 } ∧
    exec .cir s =
      .next { s with ar := 0x080#12, ac := BitVec.ofNat 16 (s.e.toNat * 32768 + s.ac.toNat / 2),
                     e := BitVec.ofNat 1 (s.ac.toNat % 2), sc := 0 } ∧
    exec .cil s =
      .next { s with ar := 0x040#12, ac := BitVec.ofNat 16 (s.ac.toNat * 2 + s.e.toNat),
                     e := BitVec.ofNat 1 (s.ac.toNat / 32768), sc := 0 } ∧
    exec .inc s = .next { s with ar := 0x020#12, ac := BitVec.ofNat 16 (s.ac.toNat + 1), sc := 0 }

/-- SPA, SNA, SZA, SZE, SKI and SKO (R168 to R171, R193, R194; D3, D9) in every state: the whole next state; a skip passes over
exactly one word. -/
def Obligations.SkipResults : Prop :=
  ∀ s : State,
    exec .spa s = .next { s with ar := 0x010#12, pc := if 0 ≤ s.ac.toInt then s.pc + 1 else s.pc, sc := 0 } ∧
    exec .sna s = .next { s with ar := 0x008#12, pc := if s.ac.toInt < 0 then s.pc + 1 else s.pc, sc := 0 } ∧
    exec .sza s = .next { s with ar := 0x004#12, pc := if s.ac = 0 then s.pc + 1 else s.pc, sc := 0 } ∧
    exec .sze s = .next { s with ar := 0x002#12, pc := if s.e = 0 then s.pc + 1 else s.pc, sc := 0 } ∧
    exec .ski s = .next { s with ar := 0x200#12, pc := if s.fgi = 1 then s.pc + 1 else s.pc, sc := 0 } ∧
    exec .sko s = .next { s with ar := 0x100#12, pc := if s.fgo = 1 then s.pc + 1 else s.pc, sc := 0 }

/-- HLT (R172; D10) and the storage instructions INP, OUT, ION, IOF (R191, R192, R195, R196; D3, D8, D9) in every state: the whole
next state. HLT emits no entry. -/
def Obligations.HaltAndIoResults : Prop :=
  ∀ s : State,
    exec .hlt s = .next { s with ar := 0x001#12, halted := true, sc := 0 } ∧
    exec .inp s = .next { s with ar := 0x800#12, ac := BitVec.ofNat 16 (s.ac.toNat / 256 * 256 + s.inpr.toNat), fgi := 0, sc := 0 } ∧
    exec .out s = .next { s with ar := 0x400#12, outr := BitVec.ofNat 8 (s.ac.toNat % 256), fgo := 0, sc := 0 } ∧
    exec .ion s = .next { s with ar := 0x080#12, ien := 1, sc := 0 } ∧
    exec .iof s = .next { s with ar := 0x040#12, ien := 0, sc := 0 }

/-- The frame of the register-reference and input/output instructions: none stores, none writes DR, TR, IR or INPR, and each other
register is written only by the instructions R40 lists. -/
def Obligations.RegisterAndIoFrame : Prop :=
  ∀ (i : Instr) (s t : State), isMri i = false → exec i s = .next t →
    t.dr = s.dr ∧ t.tr = s.tr ∧ t.ir = s.ir ∧ t.inpr = s.inpr ∧
    (i ∉ [.cla, .cma, .cir, .cil, .inc, .inp] → t.ac = s.ac) ∧
    (i ∉ [.cle, .cme, .cir, .cil] → t.e = s.e) ∧
    (i ∉ [.spa, .sna, .sza, .sze, .ski, .sko] → t.pc = s.pc) ∧
    (i ≠ .hlt → t.halted = s.halted) ∧ (i ≠ .out → t.outr = s.outr ∧ t.fgo = s.fgo) ∧ (i ≠ .inp → t.fgi = s.fgi) ∧
    (i ∉ [.ion, .iof] → t.ien = s.ien) ∧ (∀ a, t.mem.word a = s.mem.word a) ∧ sameProgramData s t

/-- The corner cases of R163, R165, R166 and R169: CIL undoes CIR, 17 CIRs in a row restore AC and E, CMA then INC negates, and exactly
one of SPA and SNA skips. -/
def Obligations.RotateNegateAndSignCorners : Prop :=
  (∀ s t u : State, exec .cir s = .next t → exec .cil t = .next u → u.ac = s.ac ∧ u.e = s.e) ∧
  (∀ s : State, ∃ t, execTimes .cir 17 s = .next t ∧ t.ac = s.ac ∧ t.e = s.e) ∧
  (∀ s t u : State, exec .cma s = .next t → exec .inc t = .next u → u.ac = -s.ac ∧ u.e = s.e) ∧
  (∀ s t u : State, exec .spa s = .next t → exec .sna s = .next u →
    (t.pc = s.pc + 1 ∧ u.pc = s.pc) ∨ (t.pc = s.pc ∧ u.pc = s.pc + 1))

/-- R32 (D9): in every state that host operations reach, SKI and SKO do not skip and INP clears the low byte of AC. -/
def Obligations.IoPollingNeverSkips : Prop :=
  ∀ s t u v : State, Reachable s → exec .ski s = .next t → exec .sko s = .next u → exec .inp s = .next v →
    t.pc = s.pc ∧ u.pc = s.pc ∧ v.ac = s.ac &&& 0xFF00#16

/-! ## Rules about the whole machine -/

/-- R24: only the fetch tick writes IR; R27: no tick writes TR; R36: no tick writes SourceProgram, ST or AP; nor INPR (R31). -/
def Obligations.TicksLeaveUntouchedRegisters : Prop :=
  ∀ (debug : Bool) (s t : State), tick debug s = .next t →
    (s.sc ≠ 0 ∨ s.halted = true → t.ir = s.ir) ∧ t.tr = s.tr ∧ t.inpr = s.inpr ∧
    t.source = s.source ∧ t.symbols = s.symbols ∧ t.program = s.program

/-- R22 and R28 (D3): the micro-steps that write AC and E are those of the instructions the rules name, at their last SC. -/
def Obligations.OnlyNamedInstructionsWriteAcAndE : Prop :=
  ∀ (debug : Bool) (s t : State), tick debug s = .next t →
    (t.ac ≠ s.ac → s.halted = false ∧ ∃ i, decode s.ir = .ok i ∧ s.sc = lastSc i ∧
      mnemonicOf i ∈ ["AND".toList, "ADD".toList, "LDA".toList, "CLA".toList, "CMA".toList, "CIR".toList, "CIL".toList,
        "INC".toList, "INP".toList]) ∧
    (t.e ≠ s.e → s.halted = false ∧ ∃ i, decode s.ir = .ok i ∧ s.sc = lastSc i ∧
      mnemonicOf i ∈ ["ADD".toList, "CLE".toList, "CME".toList, "CIR".toList, "CIL".toList])

/-- R26: where PC goes in a tick. -/
def Obligations.ProgramCounterWriters : Prop :=
  ∀ (debug : Bool) (s t : State), s.halted = false → tick debug s = .next t →
    (s.sc = 0 → t.pc = s.pc + 1) ∧ (s.sc = 1 → t.pc = s.pc) ∧
    (2 ≤ s.sc → t.pc ≠ s.pc → ∃ i, decode s.ir = .ok i ∧ s.sc = lastSc i ∧
      ((mnemonicOf i ∈ ["BUN".toList, "BSA".toList] ∧ t.pc = s.ar) ∨
       (mnemonicOf i ∈ ["ISZ".toList, "SPA".toList, "SNA".toList, "SZA".toList, "SZE".toList, "SKI".toList, "SKO".toList] ∧
         t.pc = s.pc + 1)))

/-- R57 and R25: a tick writes at most one memory word, at the address in AR, and only for STA, BSA and ISZ. -/
def Obligations.TickStoresOnlyAtAr : Prop :=
  ∀ (debug : Bool) (s t : State), tick debug s = .next t →
    (∀ b, b ≠ s.ar.toNat → t.mem.word b = s.mem.word b) ∧
    (t.mem ≠ s.mem → s.halted = false ∧ 2 ≤ s.sc ∧ ∃ ind addr,
      decode s.ir = .ok (.sta ind addr) ∨ decode s.ir = .ok (.bsa ind addr) ∨ decode s.ir = .ok (.isz ind addr))

/-- R33 (D8): IEN is written by ION and IOF alone and has no effect on execution; R27 (D8): TR is neither written nor read. Two
states that differ only in IEN and TR take ticks and steps that differ only in them. -/
def Obligations.IenAndTrHaveNoEffect : Prop :=
  (∀ (i : Instr) (s t : State), exec i s = .next t →
    (i = .ion → t.ien = 1) ∧ (i = .iof → t.ien = 0) ∧ (i ≠ .ion → i ≠ .iof → t.ien = s.ien) ∧ t.tr = s.tr) ∧
  (∀ s u : State, forgetIenTr s = forgetIenTr u →
    (∀ debug, sameUpTo forgetIenTr (tick debug s) (tick debug u)) ∧ sameUpTo forgetIenTr (step s) (step u))

/-- R36: no instruction reads SourceProgram, ST, AP or the log: what a tick or a step does to the registers and to memory does not
depend on them. -/
def Obligations.EngineIgnoresProgramData : Prop :=
  ∀ s u : State, forgetProgramData s = forgetProgramData u →
    (∀ debug, sameUpTo forgetProgramData (tick debug s) (tick debug u)) ∧ sameUpTo forgetProgramData (step s) (step u)

/-! ## Memory -/

/-- R51 and R52: the memory primitives. In range, a read answers the word and a write makes that address read as the word written
and every other address as before; beyond 4095 both raise AddressOutOfRange and do nothing. That memory is in canonical form,
before and after, is the model's choice (log 1). -/
def Obligations.MemoryPrimitives : Prop :=
  ∀ (m : Memory) (a : Nat) (v : Word), m.wf = true →
    (a < 4096 → memRead m a = .ok (m.word a) ∧
      ∃ m', memWrite m a v = .ok m' ∧ m'.wf = true ∧ m'.word a = v ∧ ∀ b, b ≠ a → m'.word b = m.word b) ∧
    (4096 ≤ a → memRead m a = .error (.raised (.addressOutOfRange a)) ∧
      memWrite m a v = .error (.raised (.addressOutOfRange a)))

/-- Memories in canonical form that read the same at the 4096 addresses are the same data (log 1). -/
def Obligations.CanonicalMemoriesAreEqual : Prop :=
  ∀ m m' : Memory, m.wf = true → m'.wf = true → (∀ a, a < 4096 → m.word a = m'.word a) → m = m'

/-! ## Encoding -/

/-- R85: the encoder and the decoder are inverse, on every instruction term with every operand and on every legal word. -/
def Obligations.EncodeAndDecodeAreInverse : Prop :=
  (∀ i : Instr, decode (encode i) = .ok i) ∧ (∀ (w : Word) (i : Instr), decode w = .ok i → encode i = w)

/-- The opcode table (R86): each row's words are exactly the words that decode to its mnemonic. -/
def Obligations.OpcodeRowsDecide : Prop :=
  ∀ r ∈ opcodeRows, ∀ w : Word, w &&& r.mask = r.pattern ↔ ∃ i, decode w = .ok i ∧ mnemonicOf i = r.mnemonic

/-- R81 (D7): every memory-reference word is legal (R82); an RRI or IOI word is illegal exactly when its low 12 bits are not a
selector of its table; there are 4084 and 4090 of them. -/
def Obligations.IllegalWords : Prop :=
  (∀ w : Word, opcodeField w ≠ 7 → ∃ i, decode w = .ok i ∧ isMri i = true) ∧
  (∀ w : Word, opcodeField w = 7 →
    (decode w = .error (.illegalOpcode w) ↔
      addressField w ∉ (if indirectBit w then ioiTable else rriTable).map Prod.fst)) ∧
  ((List.range 4096).filter fun n => decode (BitVec.ofNat 16 (0x7000 + n)) = .error (.illegalOpcode (BitVec.ofNat 16 (0x7000 + n)))).length = 4084 ∧
  ((List.range 4096).filter fun n => decode (BitVec.ofNat 16 (0xF000 + n)) = .error (.illegalOpcode (BitVec.ofNat 16 (0xF000 + n)))).length = 4090

/-- Words of spec/95_test_vectors.md (L2-ENC, L2-ILL) decode as given there. -/
def Obligations.SampleWordsDecode : Prop :=
  decode 0x2004#16 = .ok (.lda false 0x004#12) ∧ decode 0xA004#16 = .ok (.lda true 0x004#12) ∧
  decode 0x8123#16 = .ok (.and true 0x123#12) ∧ decode 0xEFFF#16 = .ok (.isz true 0xFFF#12) ∧
  decode 0x7001#16 = .ok .hlt ∧ decode 0x7080#16 = .ok .cir ∧ decode 0xF040#16 = .ok .iof ∧
  decode 0xF001#16 = .error (.illegalOpcode 0xF001#16) ∧ decode 0x7A00#16 = .error (.illegalOpcode 0x7A00#16)

/-! ## Assembler -/

/-- R225: the symbol table that the assembler leaves is pass one's; it maps each label to the address of the first word-producing
line that bound it and holds nothing else. Which lines those are is R222 to R224 (D18, D19, D21); that its labels are well formed
is R214 (D14), that each stands once R36; that it is a list is log 2. -/
def Obligations.SymbolTableHoldsFirstBindings : Prop :=
  ∀ source : List Text,
    (assembleSource source).symbols = (passOne source).symbols ∧
    (∀ l, (assembleSource source).symbols.lookup l =
      ((passOne source).placed.find? fun p => p.stmt.label == some l).map PlacedLine.addr) ∧
    symbolsWellFormed (assembleSource source).symbols = true

/-- R223 (D21): the DuplicateLabel errors of a label are about exactly its lines after the first, in order, so a name bound n times
gives n - 1 of them; every DuplicateLabel error is one of these; and over all labels the labelled lines are the entries of ST and
the DuplicateLabel errors together. -/
def Obligations.DuplicateLabelCount : Prop :=
  ∀ source : List Text,
    (∀ l, ((passOne source).errors.filter fun x =>
        x.1 == .duplicateLabel && (linesLabelled source l).any fun p => p.line == x.2) =
      ((linesLabelled source l).drop 1).map fun p => (.duplicateLabel, p.line)) ∧
    (∀ x ∈ (passOne source).errors, x.1 = .duplicateLabel → ∃ l, ∃ p ∈ linesLabelled source l, p.line = x.2) ∧
    ((passOne source).errors.filter fun x => x.1 == .duplicateLabel).length + (passOne source).symbols.length =
      ((passOne source).placed.filter fun p => p.stmt.label.isSome).length

/-- R232 (D21): at most one error per line in each pass, in line order; and every line pass two sees gives one word of AP or one
error (R226). -/
def Obligations.AtMostOneErrorPerLineAndPass : Prop :=
  ∀ source : List Text,
    ((passOne source).errors.map Prod.snd).Pairwise (· < ·) ∧
    ((passTwoErrors (passOne source).symbols (passOne source).placed).map Prod.snd).Pairwise (· < ·) ∧
    (assembleSource source).program.length + (passTwoErrors (passOne source).symbols (passOne source).placed).length =
      (passOne source).placed.length

/-- R227 (D13, D17): the word, or the error, of a memory-reference line. -/
def Obligations.MemoryReferenceLineWord : Prop :=
  ∀ (symbols : List (Text × Addr)) (label : Option Text) (m : Text) (op : Nat),
    (m, op) ∈ [("AND".toList, 0), ("ADD".toList, 1), ("LDA".toList, 2), ("STA".toList, 3), ("BUN".toList, 4),
      ("BSA".toList, 5), ("ISZ".toList, 6)] →
    (∀ o a, symbols.lookup o = some a →
      encodeLine symbols ⟨label, m, some o, none⟩ = .ok (BitVec.ofNat 16 (op * 0x1000 + a.toNat)) ∧
      encodeLine symbols ⟨label, m, some o, some "I".toList⟩ = .ok (BitVec.ofNat 16 (0x8000 + op * 0x1000 + a.toNat))) ∧
    (∀ o, symbols.lookup o = none →
      encodeLine symbols ⟨label, m, some o, none⟩ = .error .undefinedSymbol ∧
      encodeLine symbols ⟨label, m, some o, some "I".toList⟩ = .error .undefinedSymbol) ∧
    (∀ k, encodeLine symbols ⟨label, m, none, k⟩ = .error .syntaxError) ∧
    (∀ o k, k ≠ "I".toList → encodeLine symbols ⟨label, m, some o, some k⟩ = .error .syntaxError)

/-- R228: the word, or the error, of a register-reference or I/O line. -/
def Obligations.FixedLineWord : Prop :=
  ∀ (symbols : List (Text × Addr)) (label operand indicator : Option Text) (i : Instr), isMri i = false →
    (operand = none ∧ indicator = none →
      encodeLine symbols ⟨label, mnemonicOf i, operand, indicator⟩ = .ok (encode i)) ∧
    (¬(operand = none ∧ indicator = none) →
      encodeLine symbols ⟨label, mnemonicOf i, operand, indicator⟩ = .error .syntaxError)

/-- R229 and R230 (D16): the word, or the error, of a DEC and of a HEX line; R231 (D19): a mnemonic of no table that is no
pseudo-op is UnknownMnemonic, whatever the operand and the indicator (R232). -/
def Obligations.DataAndUnknownLineWord : Prop :=
  ∀ (symbols : List (Text × Addr)) (label : Option Text) (o : Text),
    (∀ v : Int, decLiteral o = some v →
      (-32768 ≤ v ∧ v ≤ 32767 → ∃ w : Word, encodeLine symbols ⟨label, "DEC".toList, some o, none⟩ = .ok w ∧ w.toInt = v) ∧
      (¬(-32768 ≤ v ∧ v ≤ 32767) → encodeLine symbols ⟨label, "DEC".toList, some o, none⟩ = .error .operandOutOfRange)) ∧
    (decLiteral o = none → encodeLine symbols ⟨label, "DEC".toList, some o, none⟩ = .error .syntaxError) ∧
    (∀ v : Nat, hexLiteral o = some v →
      (v ≤ 65535 → ∃ w : Word, encodeLine symbols ⟨label, "HEX".toList, some o, none⟩ = .ok w ∧ w.toNat = v) ∧
      (65535 < v → encodeLine symbols ⟨label, "HEX".toList, some o, none⟩ = .error .operandOutOfRange)) ∧
    (hexLiteral o = none → encodeLine symbols ⟨label, "HEX".toList, some o, none⟩ = .error .syntaxError) ∧
    (∀ m ∈ ["DEC".toList, "HEX".toList], ∀ k operand, operand = none ∨ k ≠ none →
      encodeLine symbols ⟨label, m, operand, k⟩ = .error .syntaxError) ∧
    (∀ m operand k, (∀ i, mnemonicOf i ≠ m) → m ∉ ["ORG".toList, "END".toList, "DEC".toList, "HEX".toList] →
      encodeLine symbols ⟨label, m, operand, k⟩ = .error .unknownMnemonic)

/-- R217 (D15, D16): a hexadecimal literal is one or more of the digits `0-9`, `A-F`, `a-f` and has the value they spell; a decimal
literal is an optional single sign and one or more of `0-9`, and has the signed value they spell. -/
def Obligations.LiteralValues : Prop :=
  (∀ (c : Char) (d : Nat), (hexDigit c = some d ↔ (c, d) ∈ hexDigitValues) ∧
    (decDigit c = some d ↔ (c, d) ∈ hexDigitValues ∧ d < 10)) ∧
  (∀ (t : Text) (v : Nat), hexLiteral t = some v ↔
    t ≠ [] ∧ ∃ ds : List Nat, t.map hexDigit = ds.map some ∧ v = Nat.ofDigits 16 ds.reverse) ∧
  (∀ (t : Text) (v : Int), decLiteral t = some v ↔
    ∃ (sign body : Text) (ds : List Nat), t = sign ++ body ∧ (sign = [] ∨ sign = ['+'] ∨ sign = ['-']) ∧ body ≠ [] ∧
      body.map decDigit = ds.map some ∧
      v = (if sign = ['-'] then -1 else 1) * ((Nat.ofDigits 10 ds.reverse : Nat) : Int))

/-- R212: comments are removed before any other processing. -/
def Obligations.CommentsAreRemovedFirst : Prop :=
  (∀ source : List Text, assembleSource (source.map withoutComment) = assembleSource source) ∧
  (∀ l rest : Text, '/' ∉ l → withoutComment (l ++ '/' :: rest) = l)

/-- R213: a blank or comment-only line binds nothing, moves no address, emits nothing and produces no entry of AP, wherever it
stands (only the numbers of later lines change). -/
def Obligations.BlankLinesDoNothing : Prop :=
  ∀ (before after : List Text) (b : Text), (withoutComment b).all isBlank = true →
    (assembleSource (before ++ b :: after)).symbols = (assembleSource (before ++ after)).symbols ∧
    (assembleSource (before ++ b :: after)).program = (assembleSource (before ++ after)).program ∧
    (assembleSource (before ++ b :: after)).errors.map Prod.fst = (assembleSource (before ++ after)).errors.map Prod.fst

/-- R220 (D20): no line after END is scanned by either pass. -/
def Obligations.LinesAfterEndAreIgnored : Prop :=
  ∀ (before after after' : List Text) (l : Text) (st : Statement), parseLine l = .stmt st → st.mnemonic = "END".toList →
    assembleSource (before ++ l :: after) = assembleSource (before ++ l :: after')

/-- What pass one does with a line that is not blank. A structurally wrong line is one SyntaxError (R219, D21), and the scan goes on
to the next line even where the wrong line holds END, as `END A B C` does (log 9: the model's reading of R215, R219 and R220, no
rule's words). END ends the scan, with one SyntaxError if it has a label or an operand (R220, D20). ORG with one hexadecimal operand up to 0xFFF sets LC; beyond, it
is one OperandOutOfRange, and with any other shape one SyntaxError, with LC kept (R221, D15, D20; log 10). A word-producing line at
an LC that is an address is placed there, LC moves on by one (R222, D19), and its label, if any, is bound or is one DuplicateLabel
(R223, D21); at an LC beyond 0xFFF it is one AddressOutOfRange, binds and places nothing, and LC moves on all the same (R224, D18). -/
def Obligations.PassOneLineByLine : Prop :=
  ∀ (line : Nat) (l : Text) (ls : List Text) (p : PassOne),
    (parseLine l = .bad →
      passOneFrom line p (l :: ls) = passOneFrom (line + 1) { p with errors := p.errors ++ [(.syntaxError, line)] } ls) ∧
    ∀ st, parseLine l = .stmt st →
      (st.mnemonic = "END".toList →
        (st.label = none ∧ st.operand = none → passOneFrom line p (l :: ls) = p) ∧
        (¬(st.label = none ∧ st.operand = none) →
          passOneFrom line p (l :: ls) = { p with errors := p.errors ++ [(.syntaxError, line)] })) ∧
      (st.mnemonic = "ORG".toList →
        (∀ o v, st.label = none → st.operand = some o → st.indicator = none → hexLiteral o = some v →
          (v ≤ 0xFFF → passOneFrom line p (l :: ls) = passOneFrom (line + 1) { p with lc := v } ls) ∧
          (0xFFF < v → passOneFrom line p (l :: ls) =
            passOneFrom (line + 1) { p with errors := p.errors ++ [(.operandOutOfRange, line)] } ls)) ∧
        ((st.label ≠ none ∨ st.operand = none ∨ st.indicator ≠ none ∨ ∃ o, st.operand = some o ∧ hexLiteral o = none) →
          passOneFrom line p (l :: ls) =
            passOneFrom (line + 1) { p with errors := p.errors ++ [(.syntaxError, line)] } ls)) ∧
      (st.mnemonic ≠ "END".toList → st.mnemonic ≠ "ORG".toList →
        passOneFrom line p (l :: ls) = passOneFrom (line + 1) (passOneWord line st p) ls ∧
        (∀ a : Addr, a.toNat = p.lc →
          (st.label = none →
            passOneWord line st p = { p with lc := p.lc + 1, placed := p.placed ++ [⟨line, a, st⟩] }) ∧
          (∀ k, st.label = some k → p.symbols.lookup k = none →
            passOneWord line st p =
              { p with lc := p.lc + 1, symbols := p.symbols ++ [(k, a)], placed := p.placed ++ [⟨line, a, st⟩] }) ∧
          (∀ k b, st.label = some k → p.symbols.lookup k = some b →
            passOneWord line st p =
              { p with lc := p.lc + 1, errors := p.errors ++ [(.duplicateLabel, line)],
                       placed := p.placed ++ [⟨line, a, st⟩] })) ∧
        (0xFFF < p.lc →
          passOneWord line st p = { p with lc := p.lc + 1, errors := p.errors ++ [(.addressOutOfRange, line)] }))

/-- R235 (D24): the assembler's Error entries are exactly one per error, in the order the errors are found, whatever its open Info
and Debug entries are. -/
def Obligations.ErrorEntriesAreTheErrors : Prop :=
  ∀ source : List Text,
    (assemblerEntries source).filter (fun x => x.level == .error) = (assembleSource source).errors.map asmErrorEntry

/-! ## Host interface -/

/-- R278: `state()` returns every register and all 4096 words, and changes nothing. -/
def Obligations.StateCallOnlyReads : Prop :=
  ∀ s : State, hostCall .state s = .next s ∧ ∃ v, hostReply .state s s = .snapshot v ∧
    v.ac = s.ac ∧ v.ar = s.ar ∧ v.dr = s.dr ∧ v.ir = s.ir ∧ v.pc = s.pc ∧ v.tr = s.tr ∧ v.e = s.e ∧ v.sc = s.sc ∧
    v.halted = s.halted ∧ v.inpr = s.inpr ∧ v.outr = s.outr ∧ v.fgi = s.fgi ∧ v.fgo = s.fgo ∧ v.ien = s.ien ∧
    v.words.length = 4096 ∧ ∀ a, a < 4096 → v.words[a]? = some (s.mem.word a)

/-- R272, R273, R275, R279 (D12, D26, D27): `load_program` installs the source and clears ST and AP, and touches neither memory
nor the log; `assemble` writes ST and AP and keeps the source; neither writes a register; `reset` keeps all three, and
construction leaves them empty. -/
def Obligations.HostOperationsOnProgramData : Prop :=
  ∀ (lines : List Text) (s : State),
    (∃ t, hostCall (.loadProgram lines) s = .next t ∧ sameRegisters s t ∧ t.mem = s.mem ∧ t.log = s.log ∧
      t.source = lines ∧ t.symbols = [] ∧ t.program = []) ∧
    (∃ t, hostCall .assemble s = .next t ∧ sameRegisters s t ∧ t.source = s.source ∧
      t.symbols = (assembleSource s.source).symbols ∧ t.program = (assembleSource s.source).program) ∧
    (∃ t, hostCall .reset s = .next t ∧ t.source = s.source ∧ t.symbols = s.symbols ∧ t.program = s.program) ∧
    State.reset.source = [] ∧ State.reset.symbols = [] ∧ State.reset.program = []

/-- R274 (D11): after `assemble`, an address that no pair of AP has keeps its word, and an address of AP holds the word of its last
pair, whatever the errors. -/
def Obligations.AssembleLoadsProgram : Prop :=
  ∀ s t : State, s.mem.wf = true → hostCall .assemble s = .next t →
    (∀ a, (∀ p ∈ t.program, p.1.toNat ≠ a) → t.mem.word a = s.mem.word a) ∧
    (∀ earlier a w later, t.program = earlier ++ (a, w) :: later → (∀ p ∈ later, p.1 ≠ a) → t.mem.word a.toNat = w)

/-- R236: the assembler writes no register, and what it gives depends on the source alone: not on registers or memory, nor on
the results of an earlier `assemble` (R211, D22). That the returned Info and Debug entries are the same too rests on log 6, and
that what is returned is the new part of the log on log 5. -/
def Obligations.AssemblerIgnoresRuntimeState : Prop :=
  ∀ s s' : State, s.source = s'.source → ∃ t t', hostCall .assemble s = .next t ∧ hostCall .assemble s' = .next t' ∧
    sameRegisters s t ∧ t.source = s.source ∧
    t.symbols = t'.symbols ∧ t.program = t'.program ∧ returned s t = returned s' t'

/-- R291 and R292 (D26): the old log is a beginning of the new one after every operation but `reset`, which clears it;
`load_program` and `state` leave it. What an operation returned is, by the model's choice, the part of the log after the old log
(log 5): so the first clause says that nothing of the old log is lost or moved. -/
def Obligations.LogIsAppendedTo : Prop :=
  ∀ (op : HostOp) (s t : State), hostCall op s = .next t →
    (op ≠ .reset → t.log = s.log ++ returned s t) ∧ (op = .reset → t.log = []) ∧
    ((∃ lines, op = .loadProgram lines) ∨ op = .state → t.log = s.log)
end

