-- ==== Sys2Proof/Laws/Memory.lean ====
section
/-! SUPPORT. The laws of memory: what a read returns after a write, that every operation keeps the canonical form, and that
canonical memories with equal contents are equal. -/

namespace Sys2Proof.Machine

/-! ## The canonical form -/

theorem Memory.wfFrom_cons {lo k : Nat} {v : Word} {m : Memory} :
    Memory.wfFrom lo ((k, v) :: m) = true ↔
      lo ≤ k ∧ k < Config.memWords ∧ v ≠ Memory.unlisted ∧ Memory.wfFrom (k + 1) m = true := by
  simp [Memory.wfFrom, and_assoc]

theorem Memory.wfFrom_mono {lo lo' : Nat} {m : Memory} (h : Memory.wfFrom lo m = true) (hl : lo' ≤ lo) :
    Memory.wfFrom lo' m = true := by
  cases m with
  | nil => rfl
  | cons c m =>
    obtain ⟨k, v⟩ := c
    rw [Memory.wfFrom_cons] at h ⊢
    exact ⟨hl.trans h.1, h.2⟩

/-- Below the first listed address everything reads as unlisted. -/
theorem Memory.word_below {lo a : Nat} {m : Memory} (h : Memory.wfFrom lo m = true) (ha : a < lo) :
    m.word a = Memory.unlisted := by
  induction m generalizing lo with
  | nil => rfl
  | cons c m ih =>
    obtain ⟨k, v⟩ := c
    rw [Memory.wfFrom_cons] at h
    have hk : k ≠ a := by omega
    simp only [Memory.word, hk, if_false]
    exact ih h.2.2.2 (by omega)

theorem Memory.wfFrom_setWord {lo a : Nat} {m : Memory} (v : Word) (h : Memory.wfFrom lo m = true) (hl : lo ≤ a)
    (ha : a < Config.memWords) : Memory.wfFrom lo (m.setWord a v) = true := by
  induction m generalizing lo with
  | nil =>
    simp only [Memory.setWord]
    split
    · rfl
    · exact Memory.wfFrom_cons.mpr ⟨hl, ha, by assumption, rfl⟩
  | cons c m ih =>
    obtain ⟨k, w⟩ := c
    have hc := Memory.wfFrom_cons.mp h
    simp only [Memory.setWord]
    split
    · split
      · exact h
      · exact Memory.wfFrom_cons.mpr ⟨hl, ha, by assumption, Memory.wfFrom_cons.mpr ⟨by omega, hc.2⟩⟩
    · split
      · split
        · exact Memory.wfFrom_mono hc.2.2.2 (by omega)
        · rename_i hak hv
          subst hak
          exact Memory.wfFrom_cons.mpr ⟨hl, ha, hv, hc.2.2.2⟩
      · exact Memory.wfFrom_cons.mpr ⟨hc.1, hc.2.1, hc.2.2.1, ih hc.2.2.2 (by omega)⟩

/-- A write in range keeps the canonical form. -/
theorem Memory.wf_setWord {a : Nat} {m : Memory} (v : Word) (h : m.wf = true) (ha : a < Config.memWords) :
    (m.setWord a v).wf = true :=
  Memory.wfFrom_setWord v h (Nat.zero_le a) ha

/-! ## Reads after writes -/

/-- A write leaves every other address alone, in every memory. -/
theorem Memory.word_setWord_ne {a b : Nat} (m : Memory) (v : Word) (h : b ≠ a) : (m.setWord a v).word b = m.word b := by
  induction m with
  | nil =>
    simp only [Memory.setWord]
    split
    · rfl
    · simp [Memory.word, h.symm]
  | cons c m ih =>
    obtain ⟨k, w⟩ := c
    simp only [Memory.setWord]
    split
    · split
      · rfl
      · simp [Memory.word, h.symm]
    · split
      · rename_i hak
        subst hak
        split <;> simp [Memory.word, h.symm]
      · simp only [Memory.word, ih]

theorem Memory.wordFrom_setWord_same {lo a : Nat} {m : Memory} (v : Word) (h : Memory.wfFrom lo m = true) :
    (m.setWord a v).word a = v := by
  induction m generalizing lo with
  | nil =>
    simp only [Memory.setWord]
    split
    · simp_all [Memory.word]
    · simp [Memory.word]
  | cons c m ih =>
    obtain ⟨k, w⟩ := c
    have hc := Memory.wfFrom_cons.mp h
    simp only [Memory.setWord]
    split
    · rename_i hlt
      split
      · rename_i hv
        rw [hv]
        exact Memory.word_below (Memory.wfFrom_mono (lo' := k) (Memory.wfFrom_cons.mpr ⟨le_refl k, hc.2⟩) le_rfl) hlt
      · simp [Memory.word]
    · split
      · rename_i hak
        subst hak
        split
        · rename_i hv
          rw [hv]
          exact Memory.word_below hc.2.2.2 (Nat.lt_succ_self a)
        · simp [Memory.word]
      · rename_i hlt hne
        have : k ≠ a := fun e => hne e.symm
        simp only [Memory.word, this, if_false]
        exact ih hc.2.2.2

/-- In a canonical memory a read after a write to the same address returns the value written. -/
theorem Memory.word_setWord_same {a : Nat} {m : Memory} (v : Word) (h : m.wf = true) : (m.setWord a v).word a = v :=
  Memory.wordFrom_setWord_same v h

/-! ## The checked primitives -/

/-- Every 12-bit address is in range (R53). -/
@[simp] theorem Addr.toNat_lt_memWords (a : Addr) : a.toNat < Config.memWords := a.isLt

/-- A read at a 12-bit address answers the word there (R51, R53). -/
@[simp] theorem memRead_addr (m : Memory) (a : Addr) : memRead m a.toNat = .ok (m.word a.toNat) := by
  simp [memRead]

/-- A write at a 12-bit address stores the word (R52, R53). -/
@[simp] theorem memWrite_addr (m : Memory) (a : Addr) (v : Word) : memWrite m a.toNat v = .ok (m.setWord a.toNat v) := by
  simp [memWrite]

/-- Beyond memory a read raises AddressOutOfRange (R51). -/
theorem memRead_beyond (m : Memory) {a : Nat} (h : Config.memWords ≤ a) :
    memRead m a = .error (.raised (.addressOutOfRange a)) := by
  simp [memRead, Nat.not_lt.mpr h]

/-- Beyond memory a write raises AddressOutOfRange (R52). -/
theorem memWrite_beyond (m : Memory) {a : Nat} (v : Word) (h : Config.memWords ≤ a) :
    memWrite m a v = .error (.raised (.addressOutOfRange a)) := by
  simp [memWrite, Nat.not_lt.mpr h]

/-- The program load keeps the canonical form (R274). -/
theorem loadPairs_wf (ps : List (Addr × Word)) {m : Memory} (h : m.wf = true) : (loadPairs ps m).wf = true := by
  induction ps generalizing m with
  | nil => exact h
  | cons p ps ih =>
    obtain ⟨a, w⟩ := p
    simp only [loadPairs, memWrite_addr]
    exact ih (Memory.wf_setWord w h a.isLt)

/-- The program load as plain writes (R274): no write of it is out of range. -/
theorem loadPairs_cons (a : Addr) (w : Word) (ps : List (Addr × Word)) (m : Memory) :
    loadPairs ((a, w) :: ps) m = loadPairs ps (m.setWord a.toNat w) := by
  simp [loadPairs]

end Sys2Proof.Machine
end

