-- ==== Sys2Proof/Laws/Assembler.lean ====
section
/-! SUPPORT. The assembler's operations: what each can do to pass one's data, the one induction over a source program, what the
scanner of a line guarantees, and the program load. -/

namespace Sys2Proof.Machine

/-! ## Lines -/

/-- Tokens are non-empty and hold no whitespace (R16). -/
theorem tokensFrom_spec {cur t k : Text} (hc : ∀ c ∈ cur, isBlank c = false) (hk : k ∈ tokensFrom cur t) :
    k ≠ [] ∧ ∀ c ∈ k, isBlank c = false ∧ (c ∈ cur ∨ c ∈ t) := by
  induction t generalizing cur with
  | nil =>
    simp only [tokensFrom] at hk
    split at hk
    · simp at hk
    · simp only [List.mem_singleton] at hk
      subst hk
      exact ⟨by assumption, fun c h => ⟨hc c h, .inl h⟩⟩
  | cons c cs ih =>
    have more : ∀ x : Char, (x ∈ [] ∨ x ∈ cs) → (x ∈ cur ∨ x ∈ c :: cs) := by simp +contextual
    simp only [tokensFrom] at hk
    split at hk
    · split at hk
      · obtain ⟨a, b⟩ := ih (by simp) hk
        exact ⟨a, fun x hx => ⟨(b x hx).1, more x (b x hx).2⟩⟩
      · rcases List.mem_cons.mp hk with rfl | hk
        · exact ⟨by assumption, fun c h => ⟨hc c h, .inl h⟩⟩
        · obtain ⟨a, b⟩ := ih (by simp) hk
          exact ⟨a, fun x hx => ⟨(b x hx).1, more x (b x hx).2⟩⟩
    · rename_i hb
      have hc' : ∀ d ∈ cur ++ [c], isBlank d = false := by
        intro d hd
        rcases List.mem_append.mp hd with h | h
        · exact hc d h
        · simp_all
      obtain ⟨a, b⟩ := ih hc' hk
      refine ⟨a, fun x hx => ⟨(b x hx).1, ?_⟩⟩
      have := (b x hx).2
      simp only [List.mem_append, List.mem_singleton] at this
      simp only [List.mem_cons]
      tauto

/-- What is taken up to a character does not hold it. -/
theorem ne_of_mem_takeWhile {c x : Char} {l : Text} (h : x ∈ l.takeWhile (· != c)) : x ≠ c := by
  simpa using List.mem_takeWhile_imp h

/-- A line without its comment has none (R212). -/
theorem withoutComment_idem (l : Text) : withoutComment (withoutComment l) = withoutComment l := by
  simp only [withoutComment]
  rw [List.takeWhile_eq_self_iff]
  intro x hx
  simpa using ne_of_mem_takeWhile hx

/-- The comment does not matter to the line model (R212). -/
theorem parseLine_withoutComment (l : Text) : parseLine (withoutComment l) = parseLine l := by
  simp [parseLine, withoutComment_idem]

theorem bodyLine_label {label : Option Text} {body : List Text} {st : Statement} (h : bodyLine label body = .stmt st) :
    st.label = label := by
  unfold bodyLine at h
  split at h <;> simp at h <;> subst h <;> rfl

/-- A line's label is well formed (R214). -/
theorem parseLine_isLabel {l k : Text} {st : Statement} (h : parseLine l = .stmt st) (hk : st.label = some k) :
    Text.isLabel k = true := by
  simp only [parseLine] at h
  split at h
  · simp at h
  · split at h
    · split at h
      · rename_i label hl
        split at h
        · simp at h
        · rw [bodyLine_label h] at hk
          cases hk
          obtain ⟨a, b⟩ := tokensFrom_spec (cur := []) (by simp) (show k ∈ tokensFrom [] _ by rw [← tokens, hl]; simp)
          simp only [Text.isLabel, Bool.and_eq_true, List.all_eq_true]
          refine ⟨by simpa using a, fun c hc => ?_⟩
          have hm : c ∈ (withoutComment l).takeWhile (· != ',') := by simpa using (b c hc).2
          have hs : c ≠ '/' := ne_of_mem_takeWhile ((List.takeWhile_sublist _).subset hm)
          simp [(b c hc).1, ne_of_mem_takeWhile hm, hs]
      · simp at h
    · rw [bodyLine_label h] at hk
      cases hk

/-! ## Literals -/

/-- What digits spell after a first part of value `acc`: the number with those digits, most significant first (R217). -/
theorem numeralFrom_eq_some {digit : Char → Option Nat} {base acc v : Nat} {t : Text} :
    numeralFrom digit base acc t = some v ↔
      ∃ ds : List Nat, t.map digit = ds.map some ∧ v = acc * base ^ ds.length + Nat.ofDigits base ds.reverse := by
  induction t generalizing acc with
  | nil => simp [numeralFrom]; exact eq_comm
  | cons c cs ih =>
    simp only [numeralFrom]
    cases hd : digit c with
    | none =>
      simp only [reduceCtorEq, List.map_cons, hd, false_iff, not_exists, not_and]
      intro ds h
      cases ds <;> simp at h
    | some d =>
      simp only [ih]
      constructor
      · rintro ⟨ds, h, rfl⟩
        refine ⟨d :: ds, by simp [hd, h], ?_⟩
        simp only [List.length_cons, List.reverse_cons, Nat.ofDigits_append, Nat.ofDigits_singleton, List.length_reverse]
        ring
      · rintro ⟨_ | ⟨e, ds⟩, h, rfl⟩
        · simp at h
        · simp only [List.map_cons, hd, List.cons.injEq, Option.some.injEq] at h
          obtain ⟨rfl, h⟩ := h
          refine ⟨ds, h, ?_⟩
          simp only [List.length_cons, List.reverse_cons, Nat.ofDigits_append, Nat.ofDigits_singleton, List.length_reverse]
          ring

/-! ## Pass one -/

/-- What holds of pass one's data after every line, by what a line can do: fail with an error that is no DuplicateLabel, set LC
(ORG), do nothing, or be a word-producing line. -/
theorem passOneFrom_induct (P : Nat → PassOne → Prop)
    (fail : ∀ n k p, P n p → k ≠ .duplicateLabel → P (n + 1) (failLine k n p))
    (origin : ∀ n v p, P n p → v < Config.memWords → P (n + 1) { p with lc := v })
    (skip : ∀ n p, P n p → P (n + 1) p)
    (word : ∀ n l st p, P n p → parseLine l = .stmt st → P (n + 1) (passOneWord n st p)) :
    ∀ source n p, P n p → ∃ m, P m (passOneFrom n p source) := by
  intro source
  induction source with
  | nil => exact fun n p h => ⟨n, h⟩
  | cons l ls ih =>
    intro n p h
    simp only [passOneFrom]
    split
    · exact ih _ _ (skip _ _ h)
    · exact ih _ _ (fail _ _ _ h (by decide))
    · rename_i st hst
      split
      · simp only [passOneEnd]
        split
        · exact ⟨n, h⟩
        · exact ⟨_, fail _ _ _ h (by decide)⟩
      · split
        · refine ih _ _ ?_
          simp only [passOneOrg]
          split
          · split
            · exact fail _ _ _ h (by decide)
            · split
              · exact origin _ _ _ h (by assumption)
              · exact fail _ _ _ h (by decide)
          · exact fail _ _ _ h (by decide)
        · exact ih _ _ (word _ _ _ _ h hst)

/-- What binding a label can do (R223): nothing, one DuplicateLabel error, or one new entry at the end of ST. -/
theorem bindLabel_cases (line : Nat) (label : Option Text) (a : Addr) (p : PassOne) :
    (label = none ∧ bindLabel line label a p = p) ∨
    (∃ l b, label = some l ∧ p.symbols.lookup l = some b ∧ bindLabel line label a p = failLine .duplicateLabel line p) ∨
    (∃ l, label = some l ∧ p.symbols.lookup l = none ∧
      bindLabel line label a p = { p with symbols := p.symbols ++ [(l, a)] }) := by
  rcases label with _ | l
  · exact .inl ⟨rfl, rfl⟩
  · rcases h : p.symbols.lookup l with _ | b
    · exact .inr (.inr ⟨l, rfl, h, by simp only [bindLabel, h]⟩)
    · exact .inr (.inl ⟨l, b, rfl, h, by simp only [bindLabel, h]⟩)

/-- A word-producing line in range (R222). -/
theorem passOneWord_inRange (line : Nat) (st : Statement) {p : PassOne} (h : p.lc < Config.memWords) :
    passOneWord line st p =
      { bindLabel line st.label (BitVec.ofNat 12 p.lc) p with
        lc := p.lc + 1
        placed := (bindLabel line st.label (BitVec.ofNat 12 p.lc) p).placed ++ [⟨line, BitVec.ofNat 12 p.lc, st⟩] } := by
  simp only [passOneWord, if_pos h]

/-- A word-producing line beyond the address space (R224). -/
theorem passOneWord_beyond (line : Nat) (st : Statement) {p : PassOne} (h : Config.memWords ≤ p.lc) :
    passOneWord line st p = { failLine .addressOutOfRange line p with lc := p.lc + 1 } := by
  simp only [passOneWord, if_neg (Nat.not_lt.mpr h)]

/-! ## Symbol tables -/

/-- A new label keeps a symbol table well formed (R36, R223). -/
theorem symbolsWellFormed_append {symbols : List (Text × Addr)} {l : Text} (a : Addr) (h : symbolsWellFormed symbols = true)
    (hl : Text.isLabel l = true) (hn : symbols.lookup l = none) : symbolsWellFormed (symbols ++ [(l, a)]) = true := by
  induction symbols with
  | nil => simp [symbolsWellFormed, hl]
  | cons p ps ih =>
    obtain ⟨k, v⟩ := p
    simp only [symbolsWellFormed, Bool.and_eq_true] at h
    simp only [List.lookup_cons] at hn
    split at hn
    · simp at hn
    · rename_i hk
      simp only [List.cons_append, symbolsWellFormed, Bool.and_eq_true]
      refine ⟨⟨h.1.1, ?_⟩, ih h.2 hn⟩
      have h2 := h.1.2
      simp [List.all_append] at h2 hk ⊢
      exact ⟨h2, hk⟩

/-! ## Pass two -/

/-- Every line pass two sees gives one word or one error (R226). -/
theorem passTwo_cons (symbols : List (Text × Addr)) (p : PlacedLine) (ps : List PlacedLine) :
    (∃ w, encodeLine symbols p.stmt = .ok w ∧ passTwoProgram symbols (p :: ps) = (p.addr, w) :: passTwoProgram symbols ps ∧
      passTwoErrors symbols (p :: ps) = passTwoErrors symbols ps) ∨
    (∃ k, encodeLine symbols p.stmt = .error k ∧ passTwoProgram symbols (p :: ps) = passTwoProgram symbols ps ∧
      passTwoErrors symbols (p :: ps) = (k, p.line) :: passTwoErrors symbols ps) := by
  rcases h : encodeLine symbols p.stmt with k | w
  · exact .inr ⟨k, rfl, by simp only [passTwoProgram, h], by simp only [passTwoErrors, h]⟩
  · exact .inl ⟨w, rfl, by simp only [passTwoProgram, h], by simp only [passTwoErrors, h]⟩

/-- A register-reference or I/O mnemonic names its instruction and no memory-reference one (R75, R76, R77). -/
theorem fixedNamed_mnemonicOf {i : Instr} (h : isMri i = false) :
    isMriName (mnemonicOf i) = false ∧ fixedNamed (mnemonicOf i) = some i := by
  cases i <;> first | (simp [isMri] at h; done) | exact ⟨by decide, by decide⟩

/-! ## The program load -/

/-- Loading one list after another (R274). -/
theorem loadPairs_append (ps qs : List (Addr × Word)) (m : Memory) :
    loadPairs (ps ++ qs) m = loadPairs qs (loadPairs ps m) := by
  induction ps generalizing m with
  | nil => rfl
  | cons p ps ih =>
    obtain ⟨b, w⟩ := p
    simp only [List.cons_append, loadPairs_cons, ih]

/-- The open Info and Debug entries hold no Error (R235). -/
theorem progressEntries_noError (ns : List ProgressNote) :
    (ns.map progressEntry).filter (fun x => x.level == .error) = [] := by
  simp only [List.filter_eq_nil_iff, List.mem_map, forall_exists_index, and_imp]
  rintro _ n _ rfl
  cases hd : n.debug <;> simp [progressEntry, hd]

end Sys2Proof.Machine
end

