-- ==== Sys2Proof/Laws/Decode.lean ====
section
/-! SUPPORT. The fields of encoded words, and how the decoder answers in each class of words. -/

namespace Sys2Proof

theorem encodeMri_toNat (op : BitVec 3) (ind : Bool) (a : Addr) :
    (encodeMri op ind a).toNat = ind.toNat * 0x8000 + op.toNat * 0x1000 + a.toNat := by
  have := op.isLt
  have := a.isLt
  cases ind <;> simp [encodeMri] <;> omega

theorem addressField_toNat (w : Word) : (addressField w).toNat = w.toNat % 4096 := by
  simp [addressField]

theorem opcodeField_toNat (w : Word) : (opcodeField w).toNat = w.toNat / 4096 % 8 := by
  simp [opcodeField, Nat.shiftRight_eq_div_pow]

theorem indirectBit_toNat (w : Word) : (indirectBit w).toNat = w.toNat / 32768 := by
  have := w.isLt
  simp only [indirectBit, BitVec.getLsbD, Nat.toNat_testBit]
  omega

@[simp] theorem addressField_encodeMri (op : BitVec 3) (ind : Bool) (a : Addr) :
    addressField (encodeMri op ind a) = a := by
  have := a.isLt
  apply BitVec.eq_of_toNat_eq
  rw [addressField_toNat, encodeMri_toNat]
  omega

@[simp] theorem opcodeField_encodeMri (op : BitVec 3) (ind : Bool) (a : Addr) :
    opcodeField (encodeMri op ind a) = op := by
  have := op.isLt
  have := a.isLt
  apply BitVec.eq_of_toNat_eq
  rw [opcodeField_toNat, encodeMri_toNat]
  omega

@[simp] theorem indirectBit_encodeMri (op : BitVec 3) (ind : Bool) (a : Addr) :
    indirectBit (encodeMri op ind a) = ind := by
  have := op.isLt
  have := a.isLt
  have h := indirectBit_toNat (encodeMri op ind a)
  rw [encodeMri_toNat] at h
  cases ind <;> cases hb : indirectBit (encodeMri op _ a) <;> simp [hb] at h ⊢ <;> omega

/-- A word is its three fields (R71). -/
theorem encodeMri_fields (w : Word) : encodeMri (opcodeField w) (indirectBit w) (addressField w) = w := by
  have := w.isLt
  apply BitVec.eq_of_toNat_eq
  rw [encodeMri_toNat, addressField_toNat, opcodeField_toNat, indirectBit_toNat]
  omega

/-- The decoder on memory-reference words, class MRI of R74 (R84). -/
theorem decode_mri {w : Word} (h : opcodeField w ≠ 7) :
    ∃ i, decode w = .ok i ∧ isMri i = true ∧ encode i = w := by
  have hf := encodeMri_fields w
  have hlt := (opcodeField w).isLt
  have hne : (opcodeField w).toNat ≠ 7 := fun e => h (BitVec.eq_of_toNat_eq e)
  have hc : (opcodeField w).toNat = 0 ∨ (opcodeField w).toNat = 1 ∨ (opcodeField w).toNat = 2 ∨ (opcodeField w).toNat = 3 ∨
      (opcodeField w).toNat = 4 ∨ (opcodeField w).toNat = 5 ∨ (opcodeField w).toNat = 6 := by omega
  have he : ∀ n : Nat, (opcodeField w).toNat = n → opcodeField w = BitVec.ofNat 3 n := fun n h' => by rw [← h']; simp
  rcases hc with hn | hn | hn | hn | hn | hn | hn <;>
    simp only [decode, hn] <;>
    exact ⟨_, rfl, rfl, by rw [he _ hn] at hf; exact hf⟩

/-- The decoder on words with opcode field 7, classes RRI and IOI of R74 (R84). -/
theorem decode_selector {w : Word} (h : opcodeField w = 7) :
    decode w =
      match (if indirectBit w then ioiTable else rriTable).lookup (addressField w) with
      | some i => .ok i
      | none => .error (.illegalOpcode w) := by
  simp only [decode, h]
  rfl

/-- The mask of the memory-reference rows keeps the opcode field (R86). -/
theorem and_opcodeMask (w : Word) : w &&& 0x7000#16 = (opcodeField w).setWidth 16 <<< 12 := by
  apply BitVec.eq_of_getLsbD_eq
  intro i hi
  interval_cases i <;> simp [opcodeField]

/-- What a lookup finds is in the list. -/
theorem mem_of_lookup {α β : Type} [BEq α] [LawfulBEq α] {l : List (α × β)} {a : α} {b : β} (h : l.lookup a = some b) :
    (a, b) ∈ l := by
  induction l with
  | nil => simp at h
  | cons p l ih =>
    obtain ⟨k, v⟩ := p
    simp only [List.lookup_cons] at h
    split at h
    · rename_i hk
      simp_all
    · exact List.mem_cons_of_mem _ (ih h)

/-- The register-reference table holds the selectors of the words that the encoder writes (R76, R85). -/
theorem rriTable_encode : ∀ p ∈ rriTable, encodeMri 7 false p.1 = encode p.2 ∧ isMri p.2 = false := by decide

/-- The input/output table holds the selectors of the words that the encoder writes (R77, R85). -/
theorem ioiTable_encode : ∀ p ∈ ioiTable, encodeMri 7 true p.1 = encode p.2 ∧ isMri p.2 = false := by decide

/-- Every word decodes to an instruction or is illegal, and the error names the word (R84). -/
theorem decode_cases (w : Word) : decode w = .error (.illegalOpcode w) ∨ ∃ i, decode w = .ok i := by
  by_cases h : opcodeField w = 7
  · rw [decode_selector h]
    split <;> simp
  · obtain ⟨i, hi, _⟩ := decode_mri h
    exact .inr ⟨i, hi⟩

/-- The last micro-step of an instruction is at SC = 2, 3 or 4. -/
theorem lastSc_bounds (i : Instr) : 2 ≤ lastSc i ∧ lastSc i ≤ 4 := by cases i <;> simp [lastSc]

end Sys2Proof
end

