-- ==== Sys2Proof/Laws/Flags.lean ====
section
/-! SUPPORT. The computations of E and AC as plain arithmetic, one lemma for each. -/

namespace Sys2Proof.Machine

/-- ADD's result (R132). -/
theorem sumWord_eq (a b : Word) : sumWord a b = a + b := by
  apply BitVec.eq_of_toNat_eq
  simp [sumWord, sum17]

/-- ADD's carry (R132). -/
theorem sumCarry_eq (a b : Word) : sumCarry a b = BitVec.ofNat 1 ((a.toNat + b.toNat) / 65536) := by
  have := a.isLt
  have := b.isLt
  apply BitVec.eq_of_toNat_eq
  simp [sumCarry, sum17, Nat.shiftRight_eq_div_pow]
  omega

/-- The two's-complement reading is that of BitVec (R12). -/
theorem signed16_eq (a : Word) : signed16 a = a.toInt := by
  have := a.isLt
  simp only [signed16, BitVec.toInt_eq_toNat_cond]
  split <;> split <;> omega

/-- CIR's AC (R165). -/
theorem rotateRight_toNat (e : Bit) (a : Word) : (rotateRight e a).toNat = e.toNat * 32768 + a.toNat / 2 := by
  have := a.isLt
  have h := BitVec.toNat_append e (a.extractLsb' 1 15)
  rw [BitVec.extractLsb'_toNat, ← Nat.shiftLeft_add_eq_or_of_lt (Nat.mod_lt _ (by decide)),
    Nat.shiftLeft_eq, Nat.shiftRight_eq_div_pow] at h
  refine h.trans ?_
  omega

/-- CIL's AC (R166). -/
theorem rotateLeft_toNat (a : Word) (e : Bit) : (rotateLeft a e).toNat = a.toNat % 32768 * 2 + e.toNat := by
  have := e.isLt
  have h := BitVec.toNat_append (a.extractLsb' 0 15) e
  rw [BitVec.extractLsb'_toNat, ← Nat.shiftLeft_add_eq_or_of_lt this, Nat.shiftLeft_eq] at h
  simpa [rotateLeft] using h

/-- CIR's E (R165). -/
theorem lowBit_toNat (a : Word) : (lowBit a).toNat = a.toNat % 2 := by
  simp [lowBit]

/-- CIL's E (R166). -/
theorem highBit_toNat (a : Word) : (highBit a).toNat = a.toNat / 32768 := by
  have := a.isLt
  simp [highBit, Nat.shiftRight_eq_div_pow]
  omega

/-- INP's AC (R191). -/
theorem mergeLow_toNat (a : Word) (c : IoByte) : (mergeLow a c).toNat = a.toNat / 256 * 256 + c.toNat := by
  have := a.isLt
  have := c.isLt
  have h := BitVec.toNat_append (a.extractLsb' 8 8) c
  rw [BitVec.extractLsb'_toNat, ← Nat.shiftLeft_add_eq_or_of_lt this, Nat.shiftLeft_eq, Nat.shiftRight_eq_div_pow] at h
  refine h.trans ?_
  omega

/-- OUT's byte (R192). -/
theorem lowByte_toNat (a : Word) : (lowByte a).toNat = a.toNat % 256 := by
  simp [lowByte]

/-- Exactly one of SPA's and SNA's conditions holds (R169). -/
theorem isNegative_eq_not_isPositive (a : Word) : isNegative a = !isPositive a := by
  simp only [isNegative, isPositive, ← decide_not, not_le]

end Sys2Proof.Machine
end

