-- ==== Sys2Proof/Laws/State.lean ====
section
/-! SUPPORT. One lemma per field per named update of State, true by rfl, so that no later proof unfolds an update. -/

namespace Sys2Proof.Machine

/-! ## emit -/

@[simp] theorem emit_ac (x : Entry) (s : State) : (emit x s).ac = s.ac := rfl
@[simp] theorem emit_dr (x : Entry) (s : State) : (emit x s).dr = s.dr := rfl
@[simp] theorem emit_tr (x : Entry) (s : State) : (emit x s).tr = s.tr := rfl
@[simp] theorem emit_ir (x : Entry) (s : State) : (emit x s).ir = s.ir := rfl
@[simp] theorem emit_ar (x : Entry) (s : State) : (emit x s).ar = s.ar := rfl
@[simp] theorem emit_pc (x : Entry) (s : State) : (emit x s).pc = s.pc := rfl
@[simp] theorem emit_e (x : Entry) (s : State) : (emit x s).e = s.e := rfl
@[simp] theorem emit_sc (x : Entry) (s : State) : (emit x s).sc = s.sc := rfl
@[simp] theorem emit_halted (x : Entry) (s : State) : (emit x s).halted = s.halted := rfl
@[simp] theorem emit_inpr (x : Entry) (s : State) : (emit x s).inpr = s.inpr := rfl
@[simp] theorem emit_outr (x : Entry) (s : State) : (emit x s).outr = s.outr := rfl
@[simp] theorem emit_fgi (x : Entry) (s : State) : (emit x s).fgi = s.fgi := rfl
@[simp] theorem emit_fgo (x : Entry) (s : State) : (emit x s).fgo = s.fgo := rfl
@[simp] theorem emit_ien (x : Entry) (s : State) : (emit x s).ien = s.ien := rfl
@[simp] theorem emit_mem (x : Entry) (s : State) : (emit x s).mem = s.mem := rfl
@[simp] theorem emit_source (x : Entry) (s : State) : (emit x s).source = s.source := rfl
@[simp] theorem emit_symbols (x : Entry) (s : State) : (emit x s).symbols = s.symbols := rfl
@[simp] theorem emit_program (x : Entry) (s : State) : (emit x s).program = s.program := rfl
@[simp] theorem emit_log (x : Entry) (s : State) : (emit x s).log = s.log ++ [x] := rfl

/-! ## takeError -/

@[simp] theorem takeError_ac (x : RuntimeError) (s : State) : (takeError x s).ac = s.ac := rfl
@[simp] theorem takeError_dr (x : RuntimeError) (s : State) : (takeError x s).dr = s.dr := rfl
@[simp] theorem takeError_tr (x : RuntimeError) (s : State) : (takeError x s).tr = s.tr := rfl
@[simp] theorem takeError_ir (x : RuntimeError) (s : State) : (takeError x s).ir = s.ir := rfl
@[simp] theorem takeError_ar (x : RuntimeError) (s : State) : (takeError x s).ar = s.ar := rfl
@[simp] theorem takeError_pc (x : RuntimeError) (s : State) : (takeError x s).pc = s.pc := rfl
@[simp] theorem takeError_e (x : RuntimeError) (s : State) : (takeError x s).e = s.e := rfl
@[simp] theorem takeError_sc (x : RuntimeError) (s : State) : (takeError x s).sc = s.sc := rfl
@[simp] theorem takeError_halted (x : RuntimeError) (s : State) : (takeError x s).halted = true := rfl
@[simp] theorem takeError_inpr (x : RuntimeError) (s : State) : (takeError x s).inpr = s.inpr := rfl
@[simp] theorem takeError_outr (x : RuntimeError) (s : State) : (takeError x s).outr = s.outr := rfl
@[simp] theorem takeError_fgi (x : RuntimeError) (s : State) : (takeError x s).fgi = s.fgi := rfl
@[simp] theorem takeError_fgo (x : RuntimeError) (s : State) : (takeError x s).fgo = s.fgo := rfl
@[simp] theorem takeError_ien (x : RuntimeError) (s : State) : (takeError x s).ien = s.ien := rfl
@[simp] theorem takeError_mem (x : RuntimeError) (s : State) : (takeError x s).mem = s.mem := rfl
@[simp] theorem takeError_source (x : RuntimeError) (s : State) : (takeError x s).source = s.source := rfl
@[simp] theorem takeError_symbols (x : RuntimeError) (s : State) : (takeError x s).symbols = s.symbols := rfl
@[simp] theorem takeError_program (x : RuntimeError) (s : State) : (takeError x s).program = s.program := rfl
@[simp] theorem takeError_log (x : RuntimeError) (s : State) : (takeError x s).log = s.log ++ [errorEntry x] := rfl

/-! ## noticeHalted -/

@[simp] theorem noticeHalted_ac (s : State) : (noticeHalted s).ac = s.ac := rfl
@[simp] theorem noticeHalted_dr (s : State) : (noticeHalted s).dr = s.dr := rfl
@[simp] theorem noticeHalted_tr (s : State) : (noticeHalted s).tr = s.tr := rfl
@[simp] theorem noticeHalted_ir (s : State) : (noticeHalted s).ir = s.ir := rfl
@[simp] theorem noticeHalted_ar (s : State) : (noticeHalted s).ar = s.ar := rfl
@[simp] theorem noticeHalted_pc (s : State) : (noticeHalted s).pc = s.pc := rfl
@[simp] theorem noticeHalted_e (s : State) : (noticeHalted s).e = s.e := rfl
@[simp] theorem noticeHalted_sc (s : State) : (noticeHalted s).sc = s.sc := rfl
@[simp] theorem noticeHalted_halted (s : State) : (noticeHalted s).halted = s.halted := rfl
@[simp] theorem noticeHalted_inpr (s : State) : (noticeHalted s).inpr = s.inpr := rfl
@[simp] theorem noticeHalted_outr (s : State) : (noticeHalted s).outr = s.outr := rfl
@[simp] theorem noticeHalted_fgi (s : State) : (noticeHalted s).fgi = s.fgi := rfl
@[simp] theorem noticeHalted_fgo (s : State) : (noticeHalted s).fgo = s.fgo := rfl
@[simp] theorem noticeHalted_ien (s : State) : (noticeHalted s).ien = s.ien := rfl
@[simp] theorem noticeHalted_mem (s : State) : (noticeHalted s).mem = s.mem := rfl
@[simp] theorem noticeHalted_source (s : State) : (noticeHalted s).source = s.source := rfl
@[simp] theorem noticeHalted_symbols (s : State) : (noticeHalted s).symbols = s.symbols := rfl
@[simp] theorem noticeHalted_program (s : State) : (noticeHalted s).program = s.program := rfl
@[simp] theorem noticeHalted_log (s : State) : (noticeHalted s).log = s.log ++ [haltedEntry] := rfl

/-! ## skipIf -/

@[simp] theorem skipIf_ac (c : Bool) (s : State) : (skipIf c s).ac = s.ac := rfl
@[simp] theorem skipIf_dr (c : Bool) (s : State) : (skipIf c s).dr = s.dr := rfl
@[simp] theorem skipIf_tr (c : Bool) (s : State) : (skipIf c s).tr = s.tr := rfl
@[simp] theorem skipIf_ir (c : Bool) (s : State) : (skipIf c s).ir = s.ir := rfl
@[simp] theorem skipIf_ar (c : Bool) (s : State) : (skipIf c s).ar = s.ar := rfl
@[simp] theorem skipIf_pc (c : Bool) (s : State) : (skipIf c s).pc = if c then s.pc + 1 else s.pc := rfl
@[simp] theorem skipIf_e (c : Bool) (s : State) : (skipIf c s).e = s.e := rfl
@[simp] theorem skipIf_sc (c : Bool) (s : State) : (skipIf c s).sc = s.sc := rfl
@[simp] theorem skipIf_halted (c : Bool) (s : State) : (skipIf c s).halted = s.halted := rfl
@[simp] theorem skipIf_inpr (c : Bool) (s : State) : (skipIf c s).inpr = s.inpr := rfl
@[simp] theorem skipIf_outr (c : Bool) (s : State) : (skipIf c s).outr = s.outr := rfl
@[simp] theorem skipIf_fgi (c : Bool) (s : State) : (skipIf c s).fgi = s.fgi := rfl
@[simp] theorem skipIf_fgo (c : Bool) (s : State) : (skipIf c s).fgo = s.fgo := rfl
@[simp] theorem skipIf_ien (c : Bool) (s : State) : (skipIf c s).ien = s.ien := rfl
@[simp] theorem skipIf_mem (c : Bool) (s : State) : (skipIf c s).mem = s.mem := rfl
@[simp] theorem skipIf_source (c : Bool) (s : State) : (skipIf c s).source = s.source := rfl
@[simp] theorem skipIf_symbols (c : Bool) (s : State) : (skipIf c s).symbols = s.symbols := rfl
@[simp] theorem skipIf_program (c : Bool) (s : State) : (skipIf c s).program = s.program := rfl
@[simp] theorem skipIf_log (c : Bool) (s : State) : (skipIf c s).log = s.log := rfl

/-! ## endInstruction -/

@[simp] theorem endInstruction_ac (s : State) : (endInstruction s).ac = s.ac := rfl
@[simp] theorem endInstruction_dr (s : State) : (endInstruction s).dr = s.dr := rfl
@[simp] theorem endInstruction_tr (s : State) : (endInstruction s).tr = s.tr := rfl
@[simp] theorem endInstruction_ir (s : State) : (endInstruction s).ir = s.ir := rfl
@[simp] theorem endInstruction_ar (s : State) : (endInstruction s).ar = s.ar := rfl
@[simp] theorem endInstruction_pc (s : State) : (endInstruction s).pc = s.pc := rfl
@[simp] theorem endInstruction_e (s : State) : (endInstruction s).e = s.e := rfl
@[simp] theorem endInstruction_sc (s : State) : (endInstruction s).sc = 0 := rfl
@[simp] theorem endInstruction_halted (s : State) : (endInstruction s).halted = s.halted := rfl
@[simp] theorem endInstruction_inpr (s : State) : (endInstruction s).inpr = s.inpr := rfl
@[simp] theorem endInstruction_outr (s : State) : (endInstruction s).outr = s.outr := rfl
@[simp] theorem endInstruction_fgi (s : State) : (endInstruction s).fgi = s.fgi := rfl
@[simp] theorem endInstruction_fgo (s : State) : (endInstruction s).fgo = s.fgo := rfl
@[simp] theorem endInstruction_ien (s : State) : (endInstruction s).ien = s.ien := rfl
@[simp] theorem endInstruction_mem (s : State) : (endInstruction s).mem = s.mem := rfl
@[simp] theorem endInstruction_source (s : State) : (endInstruction s).source = s.source := rfl
@[simp] theorem endInstruction_symbols (s : State) : (endInstruction s).symbols = s.symbols := rfl
@[simp] theorem endInstruction_program (s : State) : (endInstruction s).program = s.program := rfl
@[simp] theorem endInstruction_log (s : State) : (endInstruction s).log = s.log := rfl

/-! ## resetCore -/

@[simp] theorem resetCore_ac (s : State) : (resetCore s).ac = 0 := rfl
@[simp] theorem resetCore_dr (s : State) : (resetCore s).dr = 0 := rfl
@[simp] theorem resetCore_tr (s : State) : (resetCore s).tr = 0 := rfl
@[simp] theorem resetCore_ir (s : State) : (resetCore s).ir = 0 := rfl
@[simp] theorem resetCore_ar (s : State) : (resetCore s).ar = 0 := rfl
@[simp] theorem resetCore_pc (s : State) : (resetCore s).pc = 0 := rfl
@[simp] theorem resetCore_e (s : State) : (resetCore s).e = 0 := rfl
@[simp] theorem resetCore_sc (s : State) : (resetCore s).sc = 0 := rfl
@[simp] theorem resetCore_halted (s : State) : (resetCore s).halted = false := rfl
@[simp] theorem resetCore_inpr (s : State) : (resetCore s).inpr = 0 := rfl
@[simp] theorem resetCore_outr (s : State) : (resetCore s).outr = 0 := rfl
@[simp] theorem resetCore_fgi (s : State) : (resetCore s).fgi = 0 := rfl
@[simp] theorem resetCore_fgo (s : State) : (resetCore s).fgo = 0 := rfl
@[simp] theorem resetCore_ien (s : State) : (resetCore s).ien = 0 := rfl
@[simp] theorem resetCore_mem (s : State) : (resetCore s).mem = [] := rfl
@[simp] theorem resetCore_source (s : State) : (resetCore s).source = s.source := rfl
@[simp] theorem resetCore_symbols (s : State) : (resetCore s).symbols = s.symbols := rfl
@[simp] theorem resetCore_program (s : State) : (resetCore s).program = s.program := rfl
@[simp] theorem resetCore_log (s : State) : (resetCore s).log = [] := rfl

/-! ## loadProgram -/

@[simp] theorem loadProgram_ac (lines : List Text) (s : State) : (loadProgram lines s).ac = s.ac := rfl
@[simp] theorem loadProgram_dr (lines : List Text) (s : State) : (loadProgram lines s).dr = s.dr := rfl
@[simp] theorem loadProgram_tr (lines : List Text) (s : State) : (loadProgram lines s).tr = s.tr := rfl
@[simp] theorem loadProgram_ir (lines : List Text) (s : State) : (loadProgram lines s).ir = s.ir := rfl
@[simp] theorem loadProgram_ar (lines : List Text) (s : State) : (loadProgram lines s).ar = s.ar := rfl
@[simp] theorem loadProgram_pc (lines : List Text) (s : State) : (loadProgram lines s).pc = s.pc := rfl
@[simp] theorem loadProgram_e (lines : List Text) (s : State) : (loadProgram lines s).e = s.e := rfl
@[simp] theorem loadProgram_sc (lines : List Text) (s : State) : (loadProgram lines s).sc = s.sc := rfl
@[simp] theorem loadProgram_halted (lines : List Text) (s : State) : (loadProgram lines s).halted = s.halted := rfl
@[simp] theorem loadProgram_inpr (lines : List Text) (s : State) : (loadProgram lines s).inpr = s.inpr := rfl
@[simp] theorem loadProgram_outr (lines : List Text) (s : State) : (loadProgram lines s).outr = s.outr := rfl
@[simp] theorem loadProgram_fgi (lines : List Text) (s : State) : (loadProgram lines s).fgi = s.fgi := rfl
@[simp] theorem loadProgram_fgo (lines : List Text) (s : State) : (loadProgram lines s).fgo = s.fgo := rfl
@[simp] theorem loadProgram_ien (lines : List Text) (s : State) : (loadProgram lines s).ien = s.ien := rfl
@[simp] theorem loadProgram_mem (lines : List Text) (s : State) : (loadProgram lines s).mem = s.mem := rfl
@[simp] theorem loadProgram_source (lines : List Text) (s : State) : (loadProgram lines s).source = lines := rfl
@[simp] theorem loadProgram_symbols (lines : List Text) (s : State) : (loadProgram lines s).symbols = [] := rfl
@[simp] theorem loadProgram_program (lines : List Text) (s : State) : (loadProgram lines s).program = [] := rfl
@[simp] theorem loadProgram_log (lines : List Text) (s : State) : (loadProgram lines s).log = s.log := rfl

/-! ## assemble -/

@[simp] theorem assemble_ac (s : State) : (assemble s).ac = s.ac := rfl
@[simp] theorem assemble_dr (s : State) : (assemble s).dr = s.dr := rfl
@[simp] theorem assemble_tr (s : State) : (assemble s).tr = s.tr := rfl
@[simp] theorem assemble_ir (s : State) : (assemble s).ir = s.ir := rfl
@[simp] theorem assemble_ar (s : State) : (assemble s).ar = s.ar := rfl
@[simp] theorem assemble_pc (s : State) : (assemble s).pc = s.pc := rfl
@[simp] theorem assemble_e (s : State) : (assemble s).e = s.e := rfl
@[simp] theorem assemble_sc (s : State) : (assemble s).sc = s.sc := rfl
@[simp] theorem assemble_halted (s : State) : (assemble s).halted = s.halted := rfl
@[simp] theorem assemble_inpr (s : State) : (assemble s).inpr = s.inpr := rfl
@[simp] theorem assemble_outr (s : State) : (assemble s).outr = s.outr := rfl
@[simp] theorem assemble_fgi (s : State) : (assemble s).fgi = s.fgi := rfl
@[simp] theorem assemble_fgo (s : State) : (assemble s).fgo = s.fgo := rfl
@[simp] theorem assemble_ien (s : State) : (assemble s).ien = s.ien := rfl
@[simp] theorem assemble_mem (s : State) : (assemble s).mem = loadPairs (assembleSource s.source).program s.mem := rfl
@[simp] theorem assemble_source (s : State) : (assemble s).source = s.source := rfl
@[simp] theorem assemble_symbols (s : State) : (assemble s).symbols = (assembleSource s.source).symbols := rfl
@[simp] theorem assemble_program (s : State) : (assemble s).program = (assembleSource s.source).program := rfl
@[simp] theorem assemble_log (s : State) : (assemble s).log = s.log ++ assemblerEntries s.source := rfl

/-! ## placeWord -/

@[simp] theorem placeWord_ac (w : Word) (s : State) : (placeWord w s).ac = s.ac := rfl
@[simp] theorem placeWord_dr (w : Word) (s : State) : (placeWord w s).dr = s.dr := rfl
@[simp] theorem placeWord_tr (w : Word) (s : State) : (placeWord w s).tr = s.tr := rfl
@[simp] theorem placeWord_ir (w : Word) (s : State) : (placeWord w s).ir = s.ir := rfl
@[simp] theorem placeWord_ar (w : Word) (s : State) : (placeWord w s).ar = s.ar := rfl
@[simp] theorem placeWord_pc (w : Word) (s : State) : (placeWord w s).pc = s.pc := rfl
@[simp] theorem placeWord_e (w : Word) (s : State) : (placeWord w s).e = s.e := rfl
@[simp] theorem placeWord_sc (w : Word) (s : State) : (placeWord w s).sc = 0 := rfl
@[simp] theorem placeWord_halted (w : Word) (s : State) : (placeWord w s).halted = false := rfl
@[simp] theorem placeWord_inpr (w : Word) (s : State) : (placeWord w s).inpr = s.inpr := rfl
@[simp] theorem placeWord_outr (w : Word) (s : State) : (placeWord w s).outr = s.outr := rfl
@[simp] theorem placeWord_fgi (w : Word) (s : State) : (placeWord w s).fgi = s.fgi := rfl
@[simp] theorem placeWord_fgo (w : Word) (s : State) : (placeWord w s).fgo = s.fgo := rfl
@[simp] theorem placeWord_ien (w : Word) (s : State) : (placeWord w s).ien = s.ien := rfl
@[simp] theorem placeWord_mem (w : Word) (s : State) : (placeWord w s).mem = s.mem.setWord s.pc.toNat w := rfl
@[simp] theorem placeWord_source (w : Word) (s : State) : (placeWord w s).source = s.source := rfl
@[simp] theorem placeWord_symbols (w : Word) (s : State) : (placeWord w s).symbols = s.symbols := rfl
@[simp] theorem placeWord_program (w : Word) (s : State) : (placeWord w s).program = s.program := rfl
@[simp] theorem placeWord_log (w : Word) (s : State) : (placeWord w s).log = s.log := rfl

end Sys2Proof.Machine
end

