-- ==== Sys2Proof/Laws/Ops.lean ====
section
/-! SUPPORT. One lemma per shared operation that says everything it can do. -/

namespace Sys2Proof.Machine

/-! ## Operands -/

/-- The effective address, with the check of the indirect read gone (R53, R78). -/
theorem effectiveAddress_eq (m : Memory) (field : Addr) (ind : Bool) :
    effectiveAddress m field ind = .ok (if ind then addressField (m.word field.toNat) else field) := by
  cases ind <;> simp [effectiveAddress]

/-- The decode micro-step of a legal word (R101). -/
theorem loadAddress_eq (field : Addr) (ind : Bool) (s : State) :
    loadAddress field ind s =
      .ok { s with ar := if ind then addressField (s.mem.word field.toNat) else field, sc := 2 } := by
  simp [loadAddress, effectiveAddress_eq]

/-- The operand-read micro-step (R131). -/
@[simp] theorem readOperand_eq (s : State) : readOperand s = .ok { s with dr := s.mem.word s.ar.toNat, sc := 3 } := by
  simp [readOperand]

/-! ## Micro-steps and instructions -/

/-- A tick answers the micro-step's state, or the runtime error it raised, in the state before it (R301). -/
theorem settle_next {s t : State} {m : Micro} (h : settle s m = .next t) :
    m = .ok t ∨ ∃ x, m = .error (.raised x) ∧ t = takeError x s := by
  rcases m with (x | _) | u
  · exact .inr ⟨x, rfl, by simpa [settle, takeStop] using h.symm⟩
  · simp [settle, takeStop] at h
  · exact .inl (by simpa [settle] using h)

/-- One micro-step of an instruction that completes it. -/
theorem complete_last {m : State → Micro} {s t : State} (n : Nat) (hm : m s = .ok t) (hz : t.sc = 0) :
    complete m (n + 1) s = .next t := by
  simp [complete, hm, hz]

/-- One micro-step of an instruction that goes on. -/
theorem complete_more {m : State → Micro} {s t : State} (n : Nat) (hm : m s = .ok t) (hz : t.sc ≠ 0) :
    complete m (n + 1) s = complete m n t := by
  simp [complete, hm, hz]

/-- Every completed instruction ends at SC = 0 or in a runtime error (R103). -/
theorem complete_next {m : State → Micro} {n : Nat} {s t : State} (h : complete m n s = .next t) :
    t.sc = 0 ∨ ∃ x u, t = takeError x u := by
  induction n generalizing s with
  | zero => simp [complete] at h
  | succ n ih =>
    simp only [complete] at h
    split at h
    · split at h
      · cases h
        exact .inl (by assumption)
      · exact ih h
    · rename_i x hx
      rcases x with x | _
      · exact .inr ⟨x, s, by simpa [takeStop] using h.symm⟩
      · simp [takeStop] at h

/-- An instruction from decode on is its execute micro-steps after AR holds the effective address (R101, R130). -/
theorem runInstruction_eq (field : Addr) (ind : Bool) (m : State → Micro) (s : State) :
    runInstruction field ind m s =
      complete m 3 { s with ar := if ind then addressField (s.mem.word field.toNat) else field, sc := 2 } := by
  simp [runInstruction, loadAddress_eq]

/-- An instruction with one execute micro-step (R160, R190). -/
theorem runInstruction_oneStep (field : Addr) (effect : State → State) (s : State) :
    runInstruction field false (oneStep effect) s =
      .next (endInstruction (effect { s with ar := field, sc := 2 })) := by
  simp [runInstruction_eq, complete, oneStep]

/-! ## The cycle -/

/-- The fetch micro-step (R100, R108). -/
theorem fetch_eq (debug : Bool) (s : State) :
    fetch debug s =
      .ok { s with ar := s.pc, ir := s.mem.word s.pc.toNat, pc := s.pc + 1, sc := 1,
                   log := s.log ++ if debug then [fetchEntry s.pc (s.mem.word s.pc.toNat)] else [] } := by
  cases debug <;> simp [fetch, emit]

/-- The decode micro-step (R101, R102). -/
theorem decodeStep_eq (s : State) :
    decodeStep s =
      match decode s.ir with
      | .error _ => .error (.raised (.illegalOpcode s.ir (s.pc - 1)))
      | .ok i => .ok { s with ar := if isMri i && indirectBit s.ir then
                                      addressField (s.mem.word (addressField s.ir).toNat)
                                    else addressField s.ir, sc := 2 } := by
  unfold decodeStep
  cases decode s.ir
  · rfl
  · exact loadAddress_eq _ _ _

/-- While halted a tick adds one entry and changes nothing else (R110). -/
theorem tick_halted (debug : Bool) {s : State} (h : s.halted = true) : tick debug s = .next (noticeHalted s) := by
  simp [tick, h]

/-- While running a tick is one micro-step (R107). -/
theorem tick_running (debug : Bool) {s : State} (h : s.halted = false) :
    tick debug s = settle s (microStep debug s) := by
  simp [tick, h]

end Sys2Proof.Machine
end

