-- ==== Sys2Proof/Laws/Micro.lean ====
section
/-! SUPPORT. What an execute micro-step can do, said once for all instructions; and the tick and the whole instruction as
micro-steps. -/

namespace Sys2Proof.Machine

/-- The effect of an execute micro-step, as far as it is the same for all instructions. -/
structure MicroEffect (i : Instr) (s t : State) : Prop where
  /-- SC moves on by one, and to 0 at the end (R104) -/
  sc : t.sc = if s.sc = lastSc i then 0 else s.sc + 1
  /-- HLT alone halts (R30) -/
  halted : t.halted = true ↔ s.halted = true ∨ i = .hlt
  /-- at most one word is stored, at AR, by STA, BSA or ISZ (R57) -/
  mem : t.mem = s.mem ∨ ∃ v, t.mem = s.mem.setWord s.ar.toNat v ∧ mnemonicOf i ∈ ["STA".toList, "BSA".toList, "ISZ".toList]
  /-- AC has its writers (R22) -/
  ac : t.ac = s.ac ∨ s.sc = lastSc i ∧ mnemonicOf i ∈ ["AND".toList, "ADD".toList, "LDA".toList, "CLA".toList, "CMA".toList,
    "CIR".toList, "CIL".toList, "INC".toList, "INP".toList]
  /-- E has its writers (R28) -/
  e : t.e = s.e ∨ s.sc = lastSc i ∧ mnemonicOf i ∈ ["ADD".toList, "CLE".toList, "CME".toList, "CIR".toList, "CIL".toList]
  /-- PC has its writers (R26) -/
  pc : t.pc = s.pc ∨ s.sc = lastSc i ∧
    (mnemonicOf i ∈ ["BUN".toList, "BSA".toList] ∧ t.pc = s.ar ∨
     mnemonicOf i ∈ ["ISZ".toList, "SPA".toList, "SNA".toList, "SZA".toList, "SZE".toList, "SKI".toList, "SKO".toList] ∧
       t.pc = s.pc + 1)
  /-- the I/O flags are only cleared (R32) -/
  fgi : t.fgi = s.fgi ∨ t.fgi = 0
  fgo : t.fgo = s.fgo ∨ t.fgo = 0
  /-- what no execute micro-step writes (R24, R27, R31, R36, R293) -/
  ir : t.ir = s.ir
  tr : t.tr = s.tr
  inpr : t.inpr = s.inpr
  source : t.source = s.source
  symbols : t.symbols = s.symbols
  program : t.program = s.program
  log : t.log = s.log

/-- An execute micro-step has its effect where it exists, does not exist elsewhere (R105), and never raises (R53). -/
theorem micro_spec (i : Instr) (s : State) :
    (2 ≤ s.sc ∧ s.sc ≤ lastSc i ∧ ∃ t, micro i s = .ok t ∧ MicroEffect i s t) ∨
    (¬(2 ≤ s.sc ∧ s.sc ≤ lastSc i) ∧ micro i s = .error .noMicroStep) := by
  have hs : s.sc = 0 ∨ s.sc = 1 ∨ s.sc = 2 ∨ s.sc = 3 ∨ s.sc = 4 ∨ ∃ n, s.sc = n + 5 := by
    rcases s.sc with _ | _ | _ | _ | _ | n <;> simp
  rcases hs with hs | hs | hs | hs | hs | ⟨n, hs⟩ <;> cases i <;>
    simp [micro, microAnd, microAdd, microLda, microSta, microBun, microBsa, microIsz, microCla, microCle, microCma, microCme,
      microCir, microCil, microInc, microSpa, microSna, microSza, microSze, microHlt, microInp, microOut, microSki, microSko,
      microIon, microIof, oneStep, hs, lastSc] <;>
    constructor <;> simp [hs, lastSc, mnemonicOf, skipIf, endInstruction]

theorem micro_ok {i : Instr} {s t : State} (h : micro i s = .ok t) : 2 ≤ s.sc ∧ s.sc ≤ lastSc i ∧ MicroEffect i s t := by
  rcases micro_spec i s with ⟨h2, hl, u, hu, he⟩ | ⟨_, hu⟩ <;> rw [h] at hu <;> cases hu
  exact ⟨h2, hl, he⟩

theorem micro_error {i : Instr} {s : State} {x : Stop} (h : micro i s = .error x) :
    x = .noMicroStep ∧ ¬(2 ≤ s.sc ∧ s.sc ≤ lastSc i) := by
  rcases micro_spec i s with ⟨_, _, u, hu, _⟩ | ⟨hn, hu⟩ <;> rw [h] at hu <;> cases hu
  exact ⟨rfl, hn⟩

/-- An execute tick is the micro-step of the instruction in IR (R103). -/
theorem tick_execute (debug : Bool) {s : State} {i : Instr} (h : s.halted = false) (hs : 2 ≤ s.sc) (hi : decode s.ir = .ok i) :
    tick debug s = settle s (micro i s) := by
  rw [tick_running debug h]
  rcases hn : s.sc with _ | _ | n
  · omega
  · omega
  · simp only [microStep, hn, executeStep, hi]

/-- What decode leaves in AR for an instruction (R101): the effective address, or the selector of R76 and R77. -/
def decodedAddress (m : Memory) : Instr → Addr
  | .and ind a | .add ind a | .lda ind a | .sta ind a | .bun ind a | .bsa ind a | .isz ind a =>
    if ind then addressField (m.word a.toNat) else a
  | .cla | .inp => 0x800#12
  | .cle | .out => 0x400#12
  | .cma | .ski => 0x200#12
  | .cme | .sko => 0x100#12
  | .cir | .ion => 0x080#12
  | .cil | .iof => 0x040#12
  | .inc => 0x020#12
  | .spa => 0x010#12
  | .sna => 0x008#12
  | .sza => 0x004#12
  | .sze => 0x002#12
  | .hlt => 0x001#12

/-- Each instruction is its micro-steps, from the state that decode leaves (R101, R103). -/
theorem exec_eq_complete (i : Instr) (s : State) :
    exec i s = complete (micro i) 3 { s with ar := decodedAddress s.mem i, sc := 2 } := by
  cases i <;>
    simp only [exec, execAnd, execAdd, execLda, execSta, execBun, execBsa, execIsz, execCla, execCle, execCma, execCme,
      execCir, execCil, execInc, execSpa, execSna, execSza, execSze, execHlt, execInp, execOut, execSki, execSko, execIon,
      execIof, runInstruction_eq] <;> rfl

end Sys2Proof.Machine
end

