-- ==== Sys2Proof/Laws/PerInstr.lean ====
section
/-! SUPPORT. Statements made per instruction: every instruction is well formed and its encoding is a word of its own row of the
opcode table (R85, R86). -/

namespace Sys2Proof.Laws.EncodesToItsRow

open Sys2Proof

/-- The instruction is well formed, and its word is one of the row that bears its mnemonic. -/
def Statement (i : Instr) : Prop :=
  i.wellFormed = true ∧ ∃ r ∈ opcodeRows, r.mnemonic = mnemonicOf i ∧ encode i &&& r.mask = r.pattern

/-- A memory-reference word is in the row of its opcode. -/
theorem mri_row (op : BitVec 3) (ind : Bool) (addr : Addr) :
    encodeMri op ind addr &&& 0x7000#16 = op.setWidth 16 <<< 12 := by
  rw [and_opcodeMask, opcodeField_encodeMri]

theorem and (ind : Bool) (addr : Addr) : Statement (.and ind addr) :=
  ⟨by simp [Instr.wellFormed, addr.isLt], ⟨_, 0x7000#16, 0x0000#16⟩, by decide, rfl, mri_row 0 ind addr⟩

theorem add (ind : Bool) (addr : Addr) : Statement (.add ind addr) :=
  ⟨by simp [Instr.wellFormed, addr.isLt], ⟨_, 0x7000#16, 0x1000#16⟩, by decide, rfl, mri_row 1 ind addr⟩

theorem lda (ind : Bool) (addr : Addr) : Statement (.lda ind addr) :=
  ⟨by simp [Instr.wellFormed, addr.isLt], ⟨_, 0x7000#16, 0x2000#16⟩, by decide, rfl, mri_row 2 ind addr⟩

theorem sta (ind : Bool) (addr : Addr) : Statement (.sta ind addr) :=
  ⟨by simp [Instr.wellFormed, addr.isLt], ⟨_, 0x7000#16, 0x3000#16⟩, by decide, rfl, mri_row 3 ind addr⟩

theorem bun (ind : Bool) (addr : Addr) : Statement (.bun ind addr) :=
  ⟨by simp [Instr.wellFormed, addr.isLt], ⟨_, 0x7000#16, 0x4000#16⟩, by decide, rfl, mri_row 4 ind addr⟩

theorem bsa (ind : Bool) (addr : Addr) : Statement (.bsa ind addr) :=
  ⟨by simp [Instr.wellFormed, addr.isLt], ⟨_, 0x7000#16, 0x5000#16⟩, by decide, rfl, mri_row 5 ind addr⟩

theorem isz (ind : Bool) (addr : Addr) : Statement (.isz ind addr) :=
  ⟨by simp [Instr.wellFormed, addr.isLt], ⟨_, 0x7000#16, 0x6000#16⟩, by decide, rfl, mri_row 6 ind addr⟩

theorem cla : Statement .cla := by unfold Statement; decide

theorem cle : Statement .cle := by unfold Statement; decide

theorem cma : Statement .cma := by unfold Statement; decide

theorem cme : Statement .cme := by unfold Statement; decide

theorem cir : Statement .cir := by unfold Statement; decide

theorem cil : Statement .cil := by unfold Statement; decide

theorem inc : Statement .inc := by unfold Statement; decide

theorem spa : Statement .spa := by unfold Statement; decide

theorem sna : Statement .sna := by unfold Statement; decide

theorem sza : Statement .sza := by unfold Statement; decide

theorem sze : Statement .sze := by unfold Statement; decide

theorem hlt : Statement .hlt := by unfold Statement; decide

theorem inp : Statement .inp := by unfold Statement; decide

theorem out : Statement .out := by unfold Statement; decide

theorem ski : Statement .ski := by unfold Statement; decide

theorem sko : Statement .sko := by unfold Statement; decide

theorem ion : Statement .ion := by unfold Statement; decide

theorem iof : Statement .iof := by unfold Statement; decide

end Sys2Proof.Laws.EncodesToItsRow
end

