-- ==== Sys2Proof/Laws/Run.lean ====
section
/-! SUPPORT. The end of a run (R282): what `firstHalted` finds, that every run from a boundary state either ends or is endless,
and that the end state is one, but for the log. -/

namespace Sys2Proof.Machine

/-! ## What `firstHalted` finds -/

@[simp] theorem firstHalted_halted (debugs : List Bool) {s : State} (h : s.halted = true) : firstHalted debugs s = some s := by
  cases debugs <;> simp [firstHalted, h]

@[simp] theorem firstHalted_nil {s : State} (h : s.halted = false) : firstHalted [] s = none := by
  simp [firstHalted, h]

/-- A running state: what is found is found after the first call. -/
theorem firstHalted_cons {debug : Bool} {later : List Bool} {s t : State} (h : s.halted = false) :
    firstHalted (debug :: later) s = some t ↔ ∃ u, tick debug s = .next u ∧ firstHalted later u = some t := by
  rw [firstHalted]
  cases tick debug s <;> simp [h]

/-- The calls found: a prefix of the list, halted after it, running before every call of it. -/
theorem firstHalted_eq_some {debugs : List Bool} {s t : State} :
    firstHalted debugs s = some t ↔
      ∃ n ≤ debugs.length, hostRun ((debugs.take n).map .tick) s = .next t ∧ t.halted = true ∧
        ∀ k < n, ∃ u, hostRun ((debugs.take k).map .tick) s = .next u ∧ u.halted = false := by
  induction debugs generalizing s with
  | nil =>
    cases h : s.halted
    · simp only [firstHalted_nil h, List.take_nil, List.map_nil, hostRun]
      refine ⟨nofun, ?_⟩
      rintro ⟨_, _, e, ht, _⟩
      cases e
      simp [h] at ht
    · simp only [firstHalted_halted [] h, List.take_nil, List.map_nil, hostRun]
      constructor
      · intro e
        cases e
        exact ⟨0, by simp, rfl, h, by simp⟩
      · rintro ⟨_, _, e, _, _⟩
        cases e
        rfl
  | cons debug later ih =>
    cases h : s.halted
    · rw [firstHalted_cons h]
      constructor
      · rintro ⟨u, hu, e⟩
        obtain ⟨n, hn, hr, hh, hb⟩ := ih.mp e
        refine ⟨n + 1, by simpa using hn, by simpa [hostRun, hostCall, hu] using hr, hh, ?_⟩
        rintro (_ | k) hk
        · exact ⟨s, rfl, h⟩
        · simpa [hostRun, hostCall, hu] using hb k (by omega)
      · rintro ⟨_ | n, hn, hr, hh, hb⟩
        · cases hr
          simp [h] at hh
        · cases hu : tick debug s <;> simp only [List.take_succ_cons, List.map_cons, hostRun, hostCall, hu, reduceCtorEq] at hr
          refine ⟨_, rfl, ih.mpr ⟨n, by simpa using hn, hr, hh, fun k hk => ?_⟩⟩
          simpa [hostRun, hostCall, hu] using hb (k + 1) (by omega)
    · rw [firstHalted_halted _ h]
      constructor
      · intro e
        cases e
        exact ⟨0, by simp, rfl, h, by simp⟩
      · rintro ⟨_ | n, _, hr, _, hb⟩
        · cases hr
          rfl
        · obtain ⟨u, hu, hh⟩ := hb 0 (by omega)
          cases hu
          simp [h] at hh

/-- The end state is halted. -/
theorem firstHalted_isHalted {debugs : List Bool} {s t : State} (h : firstHalted debugs s = some t) : t.halted = true := by
  obtain ⟨_, _, _, hh, _⟩ := firstHalted_eq_some.mp h
  exact hh

/-! ## Every run ends or is endless -/

/-- A tick of a running machine at a micro-step that exists answers such a state, or a halted one (R104, R105). -/
theorem tick_sequenced (debug : Bool) {s : State} (h : s.halted = false) (hs : sequenced s = true) :
    ∃ t, tick debug s = .next t ∧ (t.halted = false → sequenced t = true) := by
  rw [tick_running debug h]
  rcases hn : s.sc with _ | _ | n
  · simp only [microStep, hn, fetch_eq, settle]
    exact ⟨_, rfl, by simp [sequenced]⟩
  · simp only [microStep, hn, decodeStep_eq]
    cases hd : decode s.ir with
    | error x => exact ⟨_, rfl, by simp⟩
    | ok i =>
      have : 2 ≤ lastSc i := by cases i <;> simp [lastSc]
      exact ⟨_, rfl, by simp [sequenced, hd, hasMicroStep, this]⟩
  · simp only [microStep, hn, executeStep]
    cases hd : decode s.ir with
    | error x => simp [sequenced, hd, hn] at hs
    | ok i =>
      have hb : 2 ≤ s.sc ∧ s.sc ≤ lastSc i := by
        simp [sequenced, hd, hn, hasMicroStep] at hs ⊢
        omega
      obtain ⟨_, _, t, ht, he⟩ | ⟨hno, _⟩ := micro_spec i s
      · refine ⟨t, by simp [ht, settle], fun _ => ?_⟩
        by_cases hl : s.sc = lastSc i
        · simp [sequenced, he.sc, hl]
        · have : t.sc = s.sc + 1 := by simp [he.sc, hl]
          simp [sequenced, he.ir, hd, hasMicroStep, this]
          omega
      · exact absurd hb hno

/-- Ticks alone from such a state never stop: they all go on unhalted, or Halted = 1 is reached. -/
theorem goesOn_or_firstHalted (debugs : List Bool) {s : State} (h : s.halted = false) (hs : sequenced s = true) :
    (∃ t, hostRun (debugs.map .tick) s = .next t ∧ t.halted = false) ∨ ∃ t, firstHalted debugs s = some t := by
  induction debugs generalizing s with
  | nil => exact .inl ⟨s, rfl, h⟩
  | cons debug later ih =>
    obtain ⟨u, hu, hq⟩ := tick_sequenced debug h hs
    cases hh : u.halted
    · simpa [firstHalted_cons h, hostRun, hostCall, hu] using ih hh (hq hh)
    · exact .inr ⟨u, (firstHalted_cons h).mpr ⟨u, hu, firstHalted_halted _ hh⟩⟩

/-! ## One end state, but for the log -/

/-- The state with another log. -/
def withLog (l : List Entry) (s : State) : State := { s with log := l }

@[simp] theorem withLog_ir (l : List Entry) (s : State) : (withLog l s).ir = s.ir := rfl
@[simp] theorem withLog_pc (l : List Entry) (s : State) : (withLog l s).pc = s.pc := rfl
@[simp] theorem withLog_sc (l : List Entry) (s : State) : (withLog l s).sc = s.sc := rfl
@[simp] theorem withLog_halted (l : List Entry) (s : State) : (withLog l s).halted = s.halted := rfl
@[simp] theorem withLog_mem (l : List Entry) (s : State) : (withLog l s).mem = s.mem := rfl

/-- The two states agree, but for the log. -/
def SameButLog (s t : State) : Prop := t = withLog t.log s

theorem sameButLog_halted {s t : State} (h : SameButLog s t) : t.halted = s.halted := by
  have h' : t = withLog t.log s := h
  rw [h', withLog_halted]

/-- An execute micro-step neither reads nor writes the log. -/
theorem micro_withLog (i : Instr) (s : State) (l : List Entry) : micro i (withLog l s) = (micro i s).map (withLog l) := by
  have hs : s.sc = 0 ∨ s.sc = 1 ∨ s.sc = 2 ∨ s.sc = 3 ∨ s.sc = 4 ∨ ∃ n, s.sc = n + 5 := by
    rcases s.sc with _ | _ | _ | _ | _ | n <;> simp
  rcases hs with hs | hs | hs | hs | hs | ⟨n, hs⟩ <;> cases i <;>
    simp [withLog, micro, microAnd, microAdd, microLda, microSta, microBun, microBsa, microIsz, microCla, microCle, microCma,
      microCme, microCir, microCil, microInc, microSpa, microSna, microSza, microSze, microHlt, microInp, microOut, microSki,
      microSko, microIon, microIof, oneStep, hs, Except.map, endInstruction, skipIf]

/-- The debug flag and the log it writes to change nothing else (R108). -/
theorem tick_sameButLog (d e : Bool) {s t u : State} (h : SameButLog s u) (ht : tick d s = .next t) :
    ∃ v, tick e u = .next v ∧ SameButLog t v := by
  obtain ⟨l, rfl⟩ : ∃ l, u = withLog l s := ⟨_, h⟩
  rcases Bool.eq_false_or_eq_true s.halted with hh | hh
  · rw [tick_halted d hh] at ht
    cases ht
    exact ⟨_, tick_halted e hh, rfl⟩
  · rw [tick_running d hh] at ht
    rw [tick_running e (s := withLog l s) hh]
    rcases hn : s.sc with _ | _ | n <;> simp only [microStep, withLog_sc, hn] at ht ⊢
    · simp only [fetch_eq, settle] at ht ⊢
      cases ht
      exact ⟨_, rfl, rfl⟩
    · simp only [decodeStep_eq, withLog_ir, withLog_pc, withLog_mem] at ht ⊢
      cases hd : decode s.ir <;> simp only [hd] at ht ⊢ <;> cases ht <;> exact ⟨_, rfl, rfl⟩
    · simp only [executeStep, withLog_ir] at ht ⊢
      cases hd : decode s.ir with
      | error x => simp [hd, settle, takeStop] at ht
      | ok i =>
        simp only [hd, micro_withLog] at ht ⊢
        cases hm : micro i s with
        | ok w =>
          rw [hm] at ht
          cases ht
          exact ⟨_, rfl, rfl⟩
        | error x =>
          obtain ⟨rfl, _⟩ := micro_error hm
          simp [hm, settle, takeStop] at ht

/-- The debug flags of the calls, and how many calls follow, do not matter to what is found, but for the log. -/
theorem firstHalted_unique {ds es : List Bool} {s u t v : State} (h : SameButLog s u) (ht : firstHalted ds s = some t)
    (hv : firstHalted es u = some v) : SameButLog t v := by
  induction ds generalizing s u es with
  | nil =>
    cases hh : s.halted
    · simp [firstHalted_nil hh] at ht
    · rw [firstHalted_halted _ hh] at ht
      rw [firstHalted_halted _ ((sameButLog_halted h).trans hh)] at hv
      cases ht
      cases hv
      exact h
  | cons d ds ih =>
    cases hh : s.halted
    · have hu := (sameButLog_halted h).trans hh
      obtain ⟨s', hs', ht⟩ := (firstHalted_cons hh).mp ht
      rcases es with _ | ⟨e, es⟩
      · simp [firstHalted_nil hu] at hv
      · obtain ⟨u', hu', hv⟩ := (firstHalted_cons hu).mp hv
        obtain ⟨v', hv', hsv⟩ := tick_sameButLog d e h hs'
        rw [hu'] at hv'
        cases hv'
        exact ih hsv ht hv
    · rw [firstHalted_halted _ hh] at ht
      rw [firstHalted_halted _ ((sameButLog_halted h).trans hh)] at hv
      cases ht
      cases hv
      exact h

/-- A run has one end state, but for the log, which may hold debug entries (R108). -/
theorem isEndState_unique {s t u : State} (ht : IsEndState s t) (hu : IsEndState s u) : SameButLog t u := by
  obtain ⟨_, _, ht⟩ := ht
  obtain ⟨_, _, hu⟩ := hu
  exact firstHalted_unique (s := s) (u := s) rfl ht hu

/-- A boundary state as two equations. -/
theorem atBoundary_iff {s : State} : atBoundary s = true ↔ s.sc = 0 ∧ s.halted = false := by
  simp [atBoundary]

/-- From a boundary state a run is endless exactly when it does not end: an endless run refutes the claim that it ends, and
nothing else does (R282). -/
theorem endless_iff_not_ends {s : State} (hb : atBoundary s = true) : Endless s ↔ ¬Ends s := by
  obtain ⟨h0, hh⟩ := atBoundary_iff.mp hb
  constructor
  · rintro ⟨_, h⟩ ⟨t, _, debugs, ht⟩
    obtain ⟨n, _, hr, hth, _⟩ := firstHalted_eq_some.mp ht
    obtain ⟨u, hu, huh⟩ := h (debugs.take n)
    rw [hr] at hu
    cases hu
    simp [hth] at huh
  · refine fun hn => ⟨hb, fun debugs => ?_⟩
    rcases goesOn_or_firstHalted debugs hh (by simp [sequenced, h0]) with h | ⟨t, ht⟩
    · exact h
    · exact absurd ⟨t, hb, debugs, ht⟩ hn

/-- A state of a set that every tick keeps, all of it running, is endless from a boundary on. -/
theorem endless_of_invariant (P : State → Prop) (hrun : ∀ s, P s → s.halted = false)
    (hstep : ∀ debug s, P s → ∃ t, tick debug s = .next t ∧ P t) {s : State} (hb : atBoundary s = true) (hs : P s) :
    Endless s := by
  refine ⟨hb, fun debugs => ?_⟩
  clear hb
  induction debugs generalizing s with
  | nil => exact ⟨s, rfl, hrun s hs⟩
  | cons debug later ih =>
    obtain ⟨t, ht, hp⟩ := hstep debug s hs
    simpa [hostRun, hostCall, ht] using ih hp

end Sys2Proof.Machine
end

