-- ==== Sys2Proof/Tests/Slice0.lean ====
section
/-! SUPPORT. The model's own tests, their expected results taken from spec/95_test_vectors.md and the examples of the rules; and,
for each statement with hypotheses, a concrete case that meets them. -/

namespace Sys2Proof.Tests

open Sys2Proof Sys2Proof.Machine Sys2Proof.Claims

/-! ## Small states -/

/-- The vectors' start: an instruction at address 010, PC there, the other words as listed (each above 010). -/
def at010 (w : Word) (rest : Memory) : State := { State.reset with pc := 0x010#12, mem := (0x010, w) :: rest }

/-- The same with AC and E. -/
def withAcE (w ac : Word) (e : Bit) (rest : Memory) : State := { at010 w rest with ac := ac, e := e }

/-- In the middle of the instruction `w` from address 010: SC and AR given, PC past it. -/
def midway (w : Word) (n : Nat) (ar : Addr) : State :=
  { State.reset with ir := w, sc := n, ar := ar, pc := 0x011#12, ac := 0x0053#16, dr := 0xFFE9#16, mem := [(0x010, w)] }

/-- What a step leaves, seen through `f`. -/
def after {α : Type} (s : State) (f : State → α) : Option α :=
  match step s with
  | .next t => some (f t)
  | _       => none

/-- What an instruction leaves, seen through `f`. -/
def afterExec {α : Type} (i : Instr) (s : State) (f : State → α) : Option α :=
  match exec i s with
  | .next t => some (f t)
  | _       => none

/-- What `n` ticks leave, seen through `f`. -/
def afterTicks {α : Type} (n : Nat) (s : State) (f : State → α) : Option α :=
  match ticks n s with
  | .next t => some (f t)
  | _       => none

/-- A source program from its lines. -/
def lines (ls : List String) : List Text := ls.map String.toList

/-! ## Decoding: words written out from the encodings of R71 to R77 -/

theorem test_decode_and : decode 0b1000000100100011#16 = .ok (.and true 0x123#12) := by decide
theorem test_decode_add : decode 0b0001000000000101#16 = .ok (.add false 0x005#12) := by decide
theorem test_decode_lda : decode 0b1010000000000100#16 = .ok (.lda true 0x004#12) := by decide
theorem test_decode_sta : decode 0b0011000000000110#16 = .ok (.sta false 0x006#12) := by decide
theorem test_decode_bun : decode 0b1100000000000110#16 = .ok (.bun true 0x006#12) := by decide
theorem test_decode_bsa : decode 0b0101111111111111#16 = .ok (.bsa false 0xFFF#12) := by decide
theorem test_decode_isz : decode 0b1110111111111111#16 = .ok (.isz true 0xFFF#12) := by decide
theorem test_decode_cla : decode 0b0111100000000000#16 = .ok .cla := by decide
theorem test_decode_cle : decode 0b0111010000000000#16 = .ok .cle := by decide
theorem test_decode_cma : decode 0b0111001000000000#16 = .ok .cma := by decide
theorem test_decode_cme : decode 0b0111000100000000#16 = .ok .cme := by decide
theorem test_decode_cir : decode 0b0111000010000000#16 = .ok .cir := by decide
theorem test_decode_cil : decode 0b0111000001000000#16 = .ok .cil := by decide
theorem test_decode_inc : decode 0b0111000000100000#16 = .ok .inc := by decide
theorem test_decode_spa : decode 0b0111000000010000#16 = .ok .spa := by decide
theorem test_decode_sna : decode 0b0111000000001000#16 = .ok .sna := by decide
theorem test_decode_sza : decode 0b0111000000000100#16 = .ok .sza := by decide
theorem test_decode_sze : decode 0b0111000000000010#16 = .ok .sze := by decide
theorem test_decode_hlt : decode 0b0111000000000001#16 = .ok .hlt := by decide
theorem test_decode_inp : decode 0b1111100000000000#16 = .ok .inp := by decide
theorem test_decode_out : decode 0b1111010000000000#16 = .ok .out := by decide
theorem test_decode_ski : decode 0b1111001000000000#16 = .ok .ski := by decide
theorem test_decode_sko : decode 0b1111000100000000#16 = .ok .sko := by decide
theorem test_decode_ion : decode 0b1111000010000000#16 = .ok .ion := by decide
theorem test_decode_iof : decode 0b1111000001000000#16 = .ok .iof := by decide

/-- The illegal words of L2-ILL. -/
theorem test_decode_illegal :
    [0x7000#16, 0x7A00#16, 0x7003#16, 0x7FFF#16, 0xF000#16, 0xF0C0#16, 0xF001#16, 0xF820#16, 0xFFFF#16].all
      (fun w => decide (decode w = .error (.illegalOpcode w))) = true := by decide +kernel

/-- R83: the all-zero word is `AND 000`. -/
theorem test_decode_zero : decode 0x0000#16 = .ok (.and false 0x000#12) := by decide

/-- ENC-6 and ENC-7. -/
theorem test_encode : encode (.isz true 0xFFF#12) = 0xEFFF#16 ∧ encode .iof = 0xF040#16 := by decide

theorem test_decodeTableWord : decodeTableWord 16 0xA004 = some (.lda true 0x004#12) ∧ decodeTableWord 16 0xF001 = none := by
  decide

/-! ## Well-formedness refuses ill-formed terms -/

theorem test_label_empty : Text.isLabel [] = false := by decide
theorem test_label_blank : Text.isLabel "A B".toList = false := by decide
theorem test_label_tab : Text.isLabel ['A', '\t'] = false := by decide
theorem test_label_comma : Text.isLabel "A,".toList = false := by decide
theorem test_label_slash : Text.isLabel "A/".toList = false := by decide
theorem test_label_mnemonic : Text.isLabel "LDA".toList = true ∧ Text.isLabel "100".toList = true := by decide
theorem test_symbols_duplicate : symbolsWellFormed [("A".toList, 1#12), ("A".toList, 2#12)] = false := by decide
theorem test_symbols_badLabel : symbolsWellFormed [("A B".toList, 1#12)] = false := by decide
theorem test_symbols_good : symbolsWellFormed [("A".toList, 1#12), ("a".toList, 1#12)] = true := by decide
theorem test_instr_wellFormed : Instr.wellFormed (.isz true 0xFFF#12) = true := by decide
/-- The canonical form of a memory: order, range, and no entry that reads as unlisted. -/
theorem test_memory_wf : Memory.wf [(2, 1#16), (1, 1#16)] = false ∧ Memory.wf [(1, 1#16), (1, 2#16)] = false ∧
    Memory.wf [(4096, 1#16)] = false ∧ Memory.wf [(1, 0#16)] = false ∧ Memory.wf [(0, 1#16), (4095, 2#16)] = true := by decide
theorem test_memory_writeZero : Memory.setWord [(1, 5#16), (2, 6#16)] 1 0#16 = [(2, 6#16)] := by decide

/-! ## Memory-reference instructions (L2-MRI) -/

theorem test_and : after (withAcE 0x0100#16 0x0F0F#16 0 [(0x100, 0x00FF#16)]) (fun t => (t.ac, t.dr, t.ar)) =
    some (0x000F#16, 0x00FF#16, 0x100#12) := by decide
theorem test_and_indirect : after (withAcE 0x8100#16 0xFFFF#16 1 [(0x100, 0x0200#16), (0x200, 0x1234#16)])
    (fun t => (t.ac, t.dr, t.ar, t.e)) = some (0x1234#16, 0x1234#16, 0x200#12, 1#1) := by decide
theorem test_add_carry : after (withAcE 0x0100#16 0xFFFF#16 0 []) (fun t => t.ac) = some 0#16 ∧
    after (withAcE 0x1100#16 0x0053#16 0 [(0x100, 0xFFE9#16)]) (fun t => (t.ac, t.e)) = some (0x003C#16, 1#1) := by decide
theorem test_add_noCarryIn : after (withAcE 0x1100#16 0x7FFF#16 1 [(0x100, 0x0001#16)]) (fun t => (t.ac, t.e)) =
    some (0x8000#16, 0#1) := by decide
theorem test_lda : after (at010 0x2100#16 [(0x100, 0xBEEF#16)]) (fun t => (t.ac, t.dr, t.pc)) =
    some (0xBEEF#16, 0xBEEF#16, 0x011#12) := by decide
theorem test_lda_pointerMasked : after (at010 0xA100#16 [(0x100, 0xF123#16), (0x123, 0x0042#16)]) (fun t => (t.ac, t.ar)) =
    some (0x0042#16, 0x123#12) := by decide
theorem test_sta : after (withAcE 0x3100#16 0x1234#16 0 []) (fun t => (t.mem.word 0x100, t.dr)) = some (0x1234#16, 0#16) := by
  decide
theorem test_sta_indirect : after (withAcE 0xB100#16 0xABCD#16 0 [(0x100, 0x0200#16)])
    (fun t => (t.mem.word 0x200, t.mem.word 0x100)) = some (0xABCD#16, 0x0200#16) := by decide
theorem test_bun : after (at010 0x4123#16 []) (fun t => (t.pc, t.ar)) = some (0x123#12, 0x123#12) := by decide
theorem test_bun_indirect : after (at010 0xC100#16 [(0x100, 0x0456#16)]) (fun t => t.pc) = some 0x456#12 := by decide
theorem test_bsa : after (at010 0x5100#16 []) (fun t => (t.mem.word 0x100, t.ar, t.pc)) =
    some (0x0011#16, 0x101#12, 0x101#12) := by decide
theorem test_bsa_wraps : after (at010 0x5FFF#16 []) (fun t => (t.mem.word 0xFFF, t.ar, t.pc)) =
    some (0x0011#16, 0x000#12, 0x000#12) := by decide
theorem test_isz : after (at010 0x6100#16 [(0x100, 0xFFFE#16)]) (fun t => (t.mem.word 0x100, t.dr, t.pc)) =
    some (0xFFFF#16, 0xFFFF#16, 0x011#12) := by decide
theorem test_isz_skips : after (at010 0x6100#16 [(0x100, 0xFFFF#16)]) (fun t => (t.mem.word 0x100, t.dr, t.pc)) =
    some (0x0000#16, 0x0000#16, 0x012#12) := by decide

/-! ## Register-reference instructions (L2-RRI) -/

theorem test_cla : after (withAcE 0x7800#16 0x1234#16 1 []) (fun t => (t.ac, t.e, t.ar)) = some (0#16, 1#1, 0x800#12) := by decide
theorem test_cle : after (withAcE 0x7400#16 0x0000#16 1 []) (fun t => t.e) = some 0#1 := by decide
theorem test_cma : after (withAcE 0x7200#16 0x00FF#16 0 []) (fun t => t.ac) = some 0xFF00#16 := by decide
theorem test_cme : after (withAcE 0x7100#16 0 0 []) (fun t => t.e) = some 1#1 := by decide
theorem test_cme_one : after (withAcE 0x7100#16 0 1 []) (fun t => t.e) = some 0#1 := by decide
theorem test_cir : after (withAcE 0x7080#16 0x1235#16 1 []) (fun t => (t.ac, t.e)) = some (0x891A#16, 1#1) := by decide
theorem test_cir_out : after (withAcE 0x7080#16 0x0001#16 0 []) (fun t => (t.ac, t.e)) = some (0#16, 1#1) := by decide
theorem test_cil : after (withAcE 0x7040#16 0x1235#16 1 []) (fun t => (t.ac, t.e)) = some (0x246B#16, 0#1) := by decide
theorem test_cil_out : after (withAcE 0x7040#16 0x8000#16 0 []) (fun t => (t.ac, t.e)) = some (0#16, 1#1) := by decide
theorem test_inc : after (withAcE 0x7020#16 0xFFFF#16 0 []) (fun t => (t.ac, t.e)) = some (0#16, 0#1) := by decide
theorem test_inc_sign : after (withAcE 0x7020#16 0x7FFF#16 1 []) (fun t => (t.ac, t.e)) = some (0x8000#16, 1#1) := by decide
theorem test_spa_zero : after (withAcE 0x7010#16 0x0000#16 0 []) (fun t => t.pc) = some 0x012#12 := by decide
theorem test_spa_negative : after (withAcE 0x7010#16 0x8000#16 0 []) (fun t => t.pc) = some 0x011#12 := by decide
theorem test_sna_negative : after (withAcE 0x7008#16 0xFFE9#16 0 []) (fun t => t.pc) = some 0x012#12 := by decide
theorem test_sna_zero : after (withAcE 0x7008#16 0x0000#16 0 []) (fun t => t.pc) = some 0x011#12 := by decide
theorem test_sza_zero : after (withAcE 0x7004#16 0x0000#16 1 []) (fun t => t.pc) = some 0x012#12 := by decide
theorem test_sza_sign : after (withAcE 0x7004#16 0x8000#16 0 []) (fun t => t.pc) = some 0x011#12 := by decide
theorem test_sze_zero : after (withAcE 0x7002#16 0x0001#16 0 []) (fun t => t.pc) = some 0x012#12 := by decide
theorem test_sze_one : after (withAcE 0x7002#16 0x0000#16 1 []) (fun t => t.pc) = some 0x011#12 := by decide
theorem test_hlt : after (withAcE 0x7001#16 0x0003#16 0 []) (fun t => (t.halted, t.sc, t.pc, t.ac, t.log)) =
    some (true, 0, 0x011#12, 0x0003#16, []) := by decide
/-- RRI-27: a skip at PC = 0 past address FFF. -/
theorem test_skip_wraps : afterExec .sza { State.reset with pc := 0xFFF#12 } (fun t => t.pc) = some 0x000#12 := by decide

/-! ## Input/output instructions (L2-IOI) -/

theorem test_inp : after (withAcE 0xF800#16 0x12AB#16 0 []) (fun t => (t.ac, t.fgi)) = some (0x1200#16, 0#1) := by decide
/-- R191 on an INPR that no run from reset has: bits 15..8 of AC kept, FGI cleared. -/
theorem test_inp_byte : afterExec .inp { State.reset with ac := 0x12AB#16, inpr := 0x41#8, fgi := 1#1 }
    (fun t => (t.ac, t.fgi, t.inpr)) = some (0x1241#16, 0#1, 0x41#8) := by decide
theorem test_out : after (withAcE 0xF400#16 0x1241#16 0 []) (fun t => (t.outr, t.fgo, t.ac)) =
    some (0x41#8, 0#1, 0x1241#16) := by decide
theorem test_ski : after (at010 0xF200#16 []) (fun t => t.pc) = some 0x011#12 := by decide
theorem test_ski_set : afterExec .ski { State.reset with fgi := 1#1 } (fun t => (t.pc, t.fgi)) = some (0x001#12, 1#1) := by decide
theorem test_sko : after (at010 0xF100#16 []) (fun t => t.pc) = some 0x011#12 := by decide
theorem test_sko_set : afterExec .sko { State.reset with fgo := 1#1 } (fun t => (t.pc, t.fgo)) = some (0x001#12, 1#1) := by decide
theorem test_ion : after (at010 0xF080#16 []) (fun t => t.ien) = some 1#1 := by decide
theorem test_iof : after { at010 0xF040#16 [] with ien := 1#1 } (fun t => t.ien) = some 0#1 := by decide

/-! ## The cycle -/

/-- L2-ILL: an illegal word at 010. -/
theorem test_illegal : after (withAcE 0x7A00#16 0x0055#16 0 []) (fun t => (t.halted, t.sc, t.ir, t.ar, t.pc, t.ac)) =
    some (true, 1, 0x7A00#16, 0x010#12, 0x011#12, 0x0055#16) := by decide
theorem test_illegal_entry : after (at010 0x7A00#16 []) (fun t => t.log) =
    some [⟨.error, .engine, .error .illegalOpcode, .illegalWord 0x7A00#16 0x010#12⟩] := by decide
/-- The ISZ trace: before the write back memory still holds the old word. -/
theorem test_isz_trace : afterTicks 4 (at010 0x6100#16 [(0x100, 0xFFFF#16)]) (fun t => (t.sc, t.dr, t.mem.word 0x100)) =
    some (4, 0#16, 0xFFFF#16) := by decide
/-- The BSA trace. -/
theorem test_bsa_trace : afterTicks 3 (at010 0x5100#16 []) (fun t => (t.sc, t.mem.word 0x100, t.ar, t.pc)) =
    some (3, 0x0011#16, 0x101#12, 0x011#12) := by decide
/-- CYC-4: a tick while halted. -/
theorem test_halted : afterTicks 1 { State.reset with halted := true } (fun t => (t.log, t.pc)) =
    some ([⟨.info, .engine, .alreadyHalted, .halted⟩], 0x000#12) := by decide
/-- R105: STA has no micro-step at SC = 3. -/
theorem test_unreachable : tick false (midway 0x3100#16 3 0x100#12) = .fault .unreachable := by rfl
theorem test_withFetchWord : after (State.reset.withFetchWord 16 0x7020) (fun t => (t.ac, t.pc)) = some (1#16, 1#12) := by decide

/-! ## The assembler (R237, L2-ASM, P6) -/

theorem test_assemble_R237 :
    assembleSource (lines ["ORG 0", "LDA A", "ADD B", "STA C", "HLT", "A, DEC 83", "B, DEC -23", "C, DEC 0", "END"]) =
      ⟨[("A".toList, 0x004#12), ("B".toList, 0x005#12), ("C".toList, 0x006#12)],
       [(0x000#12, 0x2004#16), (0x001#12, 0x1005#16), (0x002#12, 0x3006#16), (0x003#12, 0x7001#16), (0x004#12, 0x0053#16),
        (0x005#12, 0xFFE9#16), (0x006#12, 0x0000#16)], []⟩ := by decide +kernel
theorem test_assemble_P6 :
    assembleSource (lines ["ORG 10 / start", "A, LDA B", "A, ADD C", "LDA Q I", "FOO", "DEC 40000", "B, HEX 10000", "C, CLA X",
      "HEX 0x1", "END"]) =
      ⟨[("A".toList, 0x010#12), ("B".toList, 0x015#12), ("C".toList, 0x016#12)], [(0x010#12, 0x2015#16), (0x011#12, 0x1016#16)],
       [(.duplicateLabel, 2), (.undefinedSymbol, 3), (.unknownMnemonic, 4), (.operandOutOfRange, 5), (.operandOutOfRange, 6),
        (.syntaxError, 7), (.syntaxError, 8)]⟩ := by decide +kernel
theorem test_assemble_P7 : assembleSource (lines ["ORG FFF", "HLT", "Z, DEC 1", "CLA"]) =
    ⟨[], [(0xFFF#12, 0x7001#16)], [(.addressOutOfRange, 2), (.addressOutOfRange, 3)]⟩ := by decide +kernel
theorem test_assemble_structure : (assembleSource (lines ["A, B, CLA"])).errors = [(.syntaxError, 0)] ∧
    (assembleSource (lines ["LDA X I extra"])).errors = [(.syntaxError, 0)] ∧
    (assembleSource (lines ["L,"])).errors = [(.syntaxError, 0)] := by decide +kernel
theorem test_assemble_end : assembleSource (lines ["ORG 100", "X, HEX 1", "END", "Y, HEX 2"]) =
    ⟨[("X".toList, 0x100#12)], [(0x100#12, 0x0001#16)], []⟩ := by decide +kernel
/-- HOST-3: the program is in memory after `assemble`, and no register has moved. -/
theorem test_host_assemble :
    (match hostRun [.loadProgram (lines ["CLA", "HLT"]), .assemble] State.reset with
     | .next t => some (t.mem, t.pc, t.sc)
     | _ => none) = some ([(0, 0x7800#16), (1, 0x7001#16)], 0#12, 0) := by rfl

/-! ## The end of a run (R282) -/

/-- HLT (R106, R172): the end state is the one after the third tick, however many ticks follow. -/
theorem test_end_hlt : firstHalted [true, false] (at010 0x7001#16 []) = none ∧
    (firstHalted [true, false, false, true, true] (at010 0x7001#16 [])).map (fun t => (t.pc, t.sc, t.log.length)) =
      some (0x011#12, 0, 1) := by decide

theorem test_hlt_ends : Ends (at010 0x7001#16 []) := ⟨_, rfl, [false, false, false], rfl⟩

/-- U12: `BUN 010` at 010 has no end state. -/
theorem test_loop_endless : Endless (at010 0x4010#16 []) := by
  refine endless_of_invariant
    (fun s => s.halted = false ∧ s.mem.word 0x010 = 0x4010#16 ∧
      (s.sc = 0 ∧ s.pc = 0x010#12 ∨ s.sc = 1 ∧ s.ir = 0x4010#16 ∨ s.sc = 2 ∧ s.ir = 0x4010#16 ∧ s.ar = 0x010#12))
    (fun _ h => h.1) ?_ rfl ⟨rfl, rfl, .inl ⟨rfl, rfl⟩⟩
  have hd : decode 0x4010#16 = .ok (.bun false 0x010#12) := by decide
  have hf : indirectBit 0x4010#16 = false ∧ addressField 0x4010#16 = 0x010#12 := by decide
  rintro debug s ⟨hh, hm, ⟨hs, hp⟩ | ⟨hs, hi⟩ | ⟨hs, hi, ha⟩⟩ <;> rw [tick_running debug hh]
  · simp [microStep, hs, fetch_eq, settle, hp, hm, hh]
  · simp [microStep, hs, decodeStep_eq, hi, hd, hf, settle, hm, hh]
  · simp [microStep, hs, executeStep, hi, hd, micro, microBun, oneStep, settle, ha, hm, hh, endInstruction]

/-! ## Witnesses: for each statement with hypotheses, a case that meets them (`witness_<Name>`), clause by clause -/

theorem witness_EveryStepKeepsInv : (at010 0x7020#16 []).Inv ∧ ∃ t, step (at010 0x7020#16 []) = .next t :=
  ⟨by constructor <;> decide, _, rfl⟩

/-- In the middle of ISZ, just before its last micro-step. -/
theorem witness_HostOperationsKeepInv : (midway 0x6100#16 4 0x100#12).Inv := by constructor <;> decide

theorem witness_ReachableStatesNeverFault : ∃ s, Reachable s ∧ s ≠ State.reset :=
  ⟨_, .call (.loadProgram (lines ["CLA"])) _ _ .construct rfl, fun h => by cases congrArg State.source h⟩

theorem witness_IoPollingNeverSkips :
    ∃ s t u v, Reachable s ∧ exec .ski s = .next t ∧ exec .sko s = .next u ∧ exec .inp s = .next v :=
  ⟨_, _, _, _, .call (.tick false) _ _ .construct rfl, rfl, rfl, rfl⟩

theorem witness_FetchTick : ({ at010 0x7020#16 [] with pc := 0xFFF#12 }).halted = false ∧
    ({ at010 0x7020#16 [] with pc := 0xFFF#12 }).sc = 0 := by decide

theorem witness_DecodeTick :
    ((midway 0xEFFF#16 1 0).halted = false ∧ (midway 0xEFFF#16 1 0).sc = 1 ∧
      decode (midway 0xEFFF#16 1 0).ir = .ok (.isz true 0xFFF#12) ∧ isMri (.isz true 0xFFF#12) = true ∧
      (midway 0xEFFF#16 1 0).ir.getLsbD 15 = true) ∧
    (decode (midway 0x6000#16 1 0).ir = .ok (.isz false 0#12) ∧ (midway 0x6000#16 1 0).ir.getLsbD 15 = false) ∧
    (decode (midway 0xF800#16 1 0).ir = .ok .inp ∧ isMri .inp = false) := by decide

theorem witness_IllegalWordHaltsAtDecode :
    ((midway 0xFFFF#16 1 0).halted = false ∧ (midway 0xFFFF#16 1 0).sc = 1 ∧
      decode (midway 0xFFFF#16 1 0).ir = .error (.illegalOpcode 0xFFFF#16)) ∧
    ((at010 0x7000#16 []).halted = false ∧ (at010 0x7000#16 []).sc = 0 ∧
      decode ((at010 0x7000#16 []).mem.word 0x010) = .error (.illegalOpcode 0x7000#16)) := by decide

theorem witness_TicksWhileHaltedOnlyNotify : ({ midway 0x7001#16 0 1 with halted := true }).halted = true := rfl

theorem witness_HaltedIsSetAndClearedAsStated :
    (∃ t, tick false (midway 0x7001#16 2 1) = .next t ∧ t.halted = true) ∧
    (∃ t, tick true (midway 0x7000#16 1 1) = .next t ∧ t.halted = true) ∧
    (∃ t, tick true (midway 0x7020#16 2 1) = .next t ∧ t.halted = false) ∧
    (∃ t, hostCall .reset { State.reset with halted := true } = .next t) ∧
    (∃ t, tick true { State.reset with halted := true } = .next t) :=
  ⟨⟨_, rfl, rfl⟩, ⟨_, rfl, rfl⟩, ⟨_, rfl, rfl⟩, ⟨_, rfl⟩, _, rfl⟩

theorem witness_HaltIsLeftOnlyByReset : ({ State.reset with halted := true }).halted = true ∧
    HostOp.reset ∉ [.tick true, .state, .assemble, .loadProgram [], .tick false] := by decide

theorem witness_TickFaultsExactlyWithoutMicroStep :
    tick true (midway 0x6100#16 5 0x100#12) = .fault .unreachable ∧ tick false (midway 0x7000#16 2 0) = .fault .unreachable :=
  ⟨rfl, rfl⟩

theorem witness_SequenceCounterDiscipline :
    (∃ t, tick false (midway 0x7020#16 0 0) = .next t) ∧ (∃ t, tick false (midway 0x7020#16 1 0) = .next t) ∧
    (∃ t, tick false (midway 0x7000#16 1 0) = .next t) ∧ (∃ t, tick false (midway 0x6100#16 3 0) = .next t) ∧
    (∃ t, tick false (midway 0x6100#16 4 0) = .next t) :=
  ⟨⟨_, rfl⟩, ⟨_, rfl⟩, ⟨_, rfl⟩, ⟨_, rfl⟩, _, rfl⟩

theorem witness_TickEmitsAtMostOneEntry : ∃ t, tick true (midway 0x7020#16 0 0) = .next t := ⟨_, rfl⟩

/-- ISZ, after four of its five ticks. -/
theorem witness_StepIsTheTicksOfItsInstruction :
    (at010 0x6100#16 []).halted = false ∧ (at010 0x6100#16 []).sc = 0 ∧
    decode ((at010 0x6100#16 []).mem.word 0x010) = .ok (.isz false 0x100#12) ∧ 4 < ticksOf (.isz false 0x100#12) := by decide

theorem witness_StepRunsDecodedInstruction :
    (at010 0xD100#16 []).halted = false ∧ (at010 0xD100#16 []).sc = 0 ∧
    decode ((at010 0xD100#16 []).mem.word 0x010) = .ok (.bsa true 0x100#12) := by decide

theorem witness_MemoryReferenceTickByTick :
    ((midway 0x8100#16 2 0).halted = false ∧ (midway 0x8100#16 2 0).sc = 2 ∧ (midway 0x1100#16 3 0).sc = 3 ∧
      (midway 0x6100#16 4 0).sc = 4) ∧
    (decode (midway 0x8100#16 2 0).ir = .ok (.and true 0x100#12) ∧ decode (midway 0x1100#16 2 0).ir = .ok (.add false 0x100#12) ∧
      decode (midway 0xA100#16 2 0).ir = .ok (.lda true 0x100#12) ∧ decode (midway 0x3FFF#16 2 0).ir = .ok (.sta false 0xFFF#12) ∧
      decode (midway 0xC000#16 2 0).ir = .ok (.bun true 0#12) ∧ decode (midway 0x5FFF#16 2 0).ir = .ok (.bsa false 0xFFF#12) ∧
      decode (midway 0x6100#16 4 0).ir = .ok (.isz false 0x100#12)) ∧
    (midway 0x6100#16 4 0).dr ≠ 0 ∧ ({ midway 0x6100#16 4 0 with dr := 0 }).dr = 0 := by decide

theorem witness_IszResult :
    effectiveAddress [(0x100, 0xFFFF#16), (0x101, 0xFFFE#16)] 0x100#12 false = .ok 0x100#12 ∧
    (Memory.word [(0x100, 0xFFFF#16), (0x101, 0xFFFE#16)] 0x100).toNat = 0xFFFF ∧
    (Memory.word [(0x100, 0xFFFF#16), (0x101, 0xFFFE#16)] 0x101).toNat ≠ 0xFFFF := by decide

theorem witness_StaBunBsaResults : (at010 0x3011#16 [(0x100, 1#16)]).mem.wf = true := by decide

theorem witness_NonStoringMemoryReferenceFrame :
    (∃ t, exec (.and true 0#12) State.reset = .next t) ∧ (∃ t, exec (.add true 0#12) State.reset = .next t) ∧
    (∃ t, exec (.lda false 0xFFF#12) State.reset = .next t) ∧ ∃ t, exec (.bun true 0x010#12) State.reset = .next t :=
  ⟨⟨_, rfl⟩, ⟨_, rfl⟩, ⟨_, rfl⟩, _, rfl⟩

theorem witness_StoringFrame :
    effectiveAddress State.reset.mem 0xFFF#12 false = .ok 0xFFF#12 ∧ (∃ t, exec (.sta false 0xFFF#12) State.reset = .next t) ∧
    (∃ t, exec (.bsa false 0xFFF#12) State.reset = .next t) ∧ ∃ t, exec (.isz false 0xFFF#12) State.reset = .next t :=
  ⟨rfl, ⟨_, rfl⟩, ⟨_, rfl⟩, _, rfl⟩

theorem witness_SubroutineCallReturns : ∃ s t v, s.mem.wf = true ∧ exec (.bsa false 0xFFF#12) s = .next t ∧
    exec (.bun true 0xFFF#12) t = .next v :=
  ⟨at010 0x5FFF#16 [], _, _, rfl, rfl, rfl⟩

theorem witness_StoredWordIsFetched :
    (at010 0x3011#16 []).mem.wf = true ∧ (at010 0x3011#16 []).halted = false ∧
    effectiveAddress (at010 0x3011#16 []).mem 0x011#12 false = .ok 0x011#12 ∧
    (∃ t, exec (.sta false 0x011#12) (at010 0x3011#16 []) = .next t) ∧
    (∃ t, exec (.bsa false 0x011#12) (at010 0x3011#16 []) = .next t) ∧
    ∃ t, exec (.isz false 0x011#12) (at010 0x3011#16 []) = .next t :=
  ⟨rfl, rfl, rfl, ⟨_, rfl⟩, ⟨_, rfl⟩, _, rfl⟩

theorem witness_RegisterAndIoFrame : isMri .inp = false ∧ ∃ t, exec .inp (at010 0xF800#16 []) = .next t := ⟨rfl, _, rfl⟩

theorem witness_RotateNegateAndSignCorners :
    (∃ t u, exec .cir (midway 0x7080#16 2 0) = .next t ∧ exec .cil t = .next u) ∧
    (∃ t u, exec .cma (midway 0x7200#16 2 0) = .next t ∧ exec .inc t = .next u) ∧
    (∃ t u, exec .spa (midway 0x7010#16 2 0) = .next t ∧ exec .sna (midway 0x7010#16 2 0) = .next u) :=
  ⟨⟨_, _, rfl, rfl⟩, ⟨_, _, rfl, rfl⟩, _, _, rfl, rfl⟩

theorem witness_TicksLeaveUntouchedRegisters : (∃ t, tick false (midway 0x7020#16 2 0) = .next t) ∧
    ∃ t, tick false { midway 0x7020#16 0 0 with halted := true } = .next t := ⟨⟨_, rfl⟩, _, rfl⟩

theorem witness_OnlyNamedInstructionsWriteAcAndE :
    (∃ t, tick false (midway 0x7020#16 2 0) = .next t ∧ t.ac ≠ (midway 0x7020#16 2 0).ac) ∧
    ∃ t, tick false (midway 0x7100#16 2 0) = .next t ∧ t.e ≠ (midway 0x7100#16 2 0).e :=
  ⟨⟨_, rfl, by decide⟩, _, rfl, by decide⟩

theorem witness_ProgramCounterWriters :
    (∃ t, tick false (midway 0x4123#16 0 0) = .next t) ∧ (∃ t, tick false (midway 0x4123#16 1 0) = .next t) ∧
    (∃ t, tick false (midway 0x4123#16 2 0x123#12) = .next t ∧ t.pc ≠ (midway 0x4123#16 2 0x123#12).pc) ∧
    ∃ t, tick false (midway 0x7002#16 2 0) = .next t ∧ t.pc ≠ (midway 0x7002#16 2 0).pc :=
  ⟨⟨_, rfl⟩, ⟨_, rfl⟩, ⟨_, rfl, by decide⟩, _, rfl, by decide⟩

theorem witness_TickStoresOnlyAtAr :
    ∃ t, tick false (midway 0x3100#16 2 0x100#12) = .next t ∧ t.mem ≠ (midway 0x3100#16 2 0x100#12).mem :=
  ⟨_, rfl, by decide⟩

theorem witness_IenAndTrHaveNoEffect :
    (∃ t, exec .ion State.reset = .next t) ∧ (∃ t, exec .iof State.reset = .next t) ∧ (∃ t, exec .cla State.reset = .next t) ∧
    forgetIenTr State.reset = forgetIenTr { State.reset with ien := 1, tr := 7 } ∧
    State.reset ≠ { State.reset with ien := 1, tr := 7 } :=
  ⟨⟨_, rfl⟩, ⟨_, rfl⟩, ⟨_, rfl⟩, rfl, by decide⟩

theorem witness_EngineIgnoresProgramData :
    forgetProgramData State.reset = forgetProgramData { State.reset with program := [(0, 1)] } ∧
    State.reset ≠ { State.reset with program := [(0, 1)] } := ⟨rfl, by decide⟩

theorem witness_MemoryPrimitives : Memory.wf [(0, 1#16), (4095, 2#16)] = true ∧ 4095 < 4096 ∧ 4096 ≤ 4096 := by decide

theorem witness_CanonicalMemoriesAreEqual :
    Memory.wf [(4095, 2#16)] = true ∧ ∀ a, a < 4096 → Memory.word [(4095, 2#16)] a = Memory.word (Memory.setWord [] 4095 2#16) a :=
  ⟨by decide, fun _ _ => rfl⟩

theorem witness_EncodeAndDecodeAreInverse : decode 0xEFFF#16 = .ok (.isz true 0xFFF#12) := by decide

theorem witness_OpcodeRowsDecide : (⟨"IOF".toList, 0xFFFF#16, 0xF040#16⟩ : OpcodeRow) ∈ opcodeRows := by decide

theorem witness_IllegalWords : opcodeField 0x6FFF#16 ≠ 7 ∧ opcodeField 0x7000#16 = 7 ∧ opcodeField 0xFFFF#16 = 7 := by decide

/-- A name bound three times: two errors, on its second and third lines. -/
theorem witness_DuplicateLabelCount :
    (linesLabelled (lines ["A, CLA", "B, CLA", "A, CMA", "A, INC"]) "A".toList).map PlacedLine.line = [0, 2, 3] ∧
    (passOne (lines ["A, CLA", "B, CLA", "A, CMA", "A, INC"])).errors = [(.duplicateLabel, 2), (.duplicateLabel, 3)] := by
  decide +kernel

theorem witness_MemoryReferenceLineWord :
    ("ISZ".toList, 6) ∈ [("AND".toList, 0), ("ADD".toList, 1), ("LDA".toList, 2), ("STA".toList, 3), ("BUN".toList, 4),
      ("BSA".toList, 5), ("ISZ".toList, 6)] ∧
    List.lookup "X".toList [("X".toList, 0xFFF#12)] = some 0xFFF#12 ∧ List.lookup "Y".toList [("X".toList, 0xFFF#12)] = none ∧
    "J".toList ≠ "I".toList := by decide

theorem witness_FixedLineWord : isMri .iof = false ∧ ((none : Option Text) = none ∧ (none : Option Text) = none) ∧
    ¬((some "X".toList : Option Text) = none ∧ (none : Option Text) = none) := by decide

theorem witness_DataAndUnknownLineWord_literals :
    decLiteral "-32768".toList = some (-32768) ∧ decLiteral "-32769".toList = some (-32769) ∧
    decLiteral "32767".toList = some 32767 ∧ decLiteral "32768".toList = some 32768 ∧ decLiteral "+-1".toList = none ∧
    hexLiteral "FFFF".toList = some 65535 ∧ hexLiteral "10000".toList = some 65536 ∧ hexLiteral "0x1".toList = none := by
  decide +kernel

theorem witness_DataAndUnknownLineWord_unknown : (∀ i, mnemonicOf i ≠ "lda".toList) ∧
    "lda".toList ∉ ["ORG".toList, "END".toList, "DEC".toList, "HEX".toList] :=
  ⟨fun i => by cases i <;> simp [mnemonicOf], by decide⟩

theorem witness_CommentsAreRemovedFirst : '/' ∉ "CLA ".toList := by decide

theorem witness_BlankLinesDoNothing : (withoutComment " / only a comment".toList).all isBlank = true ∧
    (withoutComment []).all isBlank = true := by decide +kernel

theorem witness_LinesAfterEndAreIgnored : ∃ st, parseLine "END X".toList = .stmt st ∧ st.mnemonic = "END".toList :=
  ⟨⟨none, "END".toList, some "X".toList, none⟩, by decide +kernel, rfl⟩

/-- Lines of every kind, and LC at both sides of the top. -/
theorem witness_PassOneLineByLine_lines :
    parseLine "L,".toList = .bad ∧
    parseLine "END".toList = .stmt ⟨none, "END".toList, none, none⟩ ∧
    parseLine "END X".toList = .stmt ⟨none, "END".toList, some "X".toList, none⟩ ∧
    parseLine "ORG FFF".toList = .stmt ⟨none, "ORG".toList, some "FFF".toList, none⟩ ∧
    hexLiteral "FFF".toList = some 0xFFF ∧ hexLiteral "1000".toList = some 0x1000 ∧ hexLiteral "0x10".toList = none ∧
    parseLine "L, ORG 10".toList = .stmt ⟨some "L".toList, "ORG".toList, some "10".toList, none⟩ ∧
    parseLine "A, HLT".toList = .stmt ⟨some "A".toList, "HLT".toList, none, none⟩ ∧
    parseLine "HLT".toList = .stmt ⟨none, "HLT".toList, none, none⟩ := by decide +kernel

theorem witness_PassOneLineByLine_top : (0xFFF#12).toNat = ({ PassOne.start with lc := 0xFFF }).lc ∧
    0xFFF < ({ PassOne.start with lc := 0x1000 }).lc ∧ List.lookup "A".toList PassOne.start.symbols = none ∧
    List.lookup "A".toList [("A".toList, 1#12)] = some 1#12 := by decide

theorem witness_StateCallOnlyReads : 4095 < 4096 := by decide

theorem witness_AssembleLoadsProgram : ∃ t, ({ State.reset with source := [['C', 'L', 'A']] }).mem.wf = true ∧
    hostCall .assemble { State.reset with source := [['C', 'L', 'A']] } = .next t ∧ t.program = [] ++ (0#12, 0x7800#16) :: [] ∧
    (∀ p ∈ [(0#12, 0x7800#16)], p.1.toNat ≠ 1) ∧ ∀ p ∈ ([] : List (Addr × Word)), p.1 ≠ 0#12 :=
  ⟨_, rfl, rfl, by decide +kernel, by simp, by simp⟩

theorem witness_AssemblerIgnoresRuntimeState :
    State.reset.source = ({ State.reset with symbols := [("A".toList, 1#12)], ac := 1, mem := [(0, 1#16)] }).source := rfl

theorem witness_LogIsAppendedTo :
    (∃ t, hostCall (.tick true) State.reset = .next t) ∧ (∃ t, hostCall .assemble State.reset = .next t) ∧
    (∃ t, hostCall .reset State.reset = .next t) ∧ (∃ t, hostCall (.loadProgram []) State.reset = .next t) ∧ ∃ t, hostCall .state State.reset = .next t :=
  ⟨⟨_, rfl⟩, ⟨_, rfl⟩, ⟨_, rfl⟩, ⟨_, rfl⟩, _, rfl⟩

end Sys2Proof.Tests
end

section
/-! Memory (spec/20_memory.md): what the two primitives answer in range, and the statement about them. Beyond the top they are
`memRead_beyond` and `memWrite_beyond`. -/

namespace Sys2Proof.Machine

theorem memRead_of_lt (m : Memory) {a : Nat} (h : a < Config.memWords) : memRead m a = .ok (m.word a) := if_pos h

theorem memWrite_of_lt (m : Memory) {a : Nat} (v : Word) (h : a < Config.memWords) :
    memWrite m a v = .ok (m.setWord a v) := if_pos h

/-- Settles O38: in range by the read-after-write laws of `Memory.setWord`, beyond by the range check. -/
theorem memoryPrimitives : Obligations.MemoryPrimitives := by
  intro m a v hwf
  constructor
  · intro inRange
    exact ⟨memRead_of_lt m inRange, m.setWord a v, memWrite_of_lt m v inRange, Memory.wf_setWord v hwf inRange,
      Memory.word_setWord_same v hwf, fun _ hne => Memory.word_setWord_ne m v hne⟩
  · intro beyond
    exact ⟨memRead_beyond m beyond, memWrite_beyond m v beyond⟩

end Sys2Proof.Machine
end

section
/-! Ticks while halted (R110): what any number of them answers, and the statement about them. One such tick is `tick_halted`. -/

namespace Sys2Proof.Machine

theorem ticks_succ_of_next {s t : State} (n : Nat) (h : tick false s = .next t) : ticks (n + 1) s = ticks n t := by
  simp [ticks, h]

theorem snapshot_withLog (l : List Entry) (s : State) : snapshot (withLog l s) = snapshot s := rfl

/-- `n` ticks while halted add `n` of the entry of R110 and change nothing else. -/
theorem ticks_halted (n : Nat) {s : State} (h : s.halted = true) :
    ticks n s = .next (withLog (s.log ++ List.replicate n haltedEntry) s) := by
  induction n generalizing s with
  | zero => simp [ticks, withLog]
  | succ n ih =>
    calc ticks (n + 1) s
        = ticks n (noticeHalted s) := ticks_succ_of_next n (tick_halted false h)
      _ = .next (withLog ((noticeHalted s).log ++ List.replicate n haltedEntry) (noticeHalted s)) := ih h
      _ = .next (withLog (s.log ++ List.replicate (n + 1) haltedEntry) s) := by
        simp [List.replicate_succ, withLog, noticeHalted, emit]

/-- Settles O9: one tick by `tick_halted`, any number of them by `ticks_halted`, an induction on the number. -/
theorem ticksWhileHaltedOnlyNotify : Obligations.TicksWhileHaltedOnlyNotify := by
  intro s halted
  exact ⟨fun debug => tick_halted debug halted,
    fun n => ⟨_, ticks_halted n halted, snapshot_withLog _ s, rfl⟩⟩

end Sys2Proof.Machine
end

section
/-! The symbol table (R222 to R225): what one label binding and one word-producing line do to it, the invariant of pass one that
ties it to the placed lines, and the statement about it. -/

namespace Sys2Proof.Machine

/-- The address of the first of the placed lines with the label `l`, if there is one (R225). -/
def firstAddress (placed : List PlacedLine) (l : Text) : Option Addr :=
  (placed.find? fun q => q.stmt.label == some l).map PlacedLine.addr

theorem firstAddress_append_singleton (placed : List PlacedLine) (q : PlacedLine) (l : Text) :
    firstAddress (placed ++ [q]) l =
      (firstAddress placed l).or (if q.stmt.label = some l then some q.addr else none) := by
  by_cases hq : q.stmt.label = some l <;> simp [firstAddress, List.find?_append, hq]

@[simp] theorem bindLabel_placed (line : Nat) (label : Option Text) (a : Addr) (p : PassOne) :
    (bindLabel line label a p).placed = p.placed := by
  obtain ⟨-, h⟩ | ⟨_, _, -, -, h⟩ | ⟨_, -, -, h⟩ := bindLabel_cases line label a p <;> simp only [h, failLine]

/-- Binding a label gives it the address if it was unbound, and leaves every other label (R223). -/
theorem bindLabel_lookup (line : Nat) (label : Option Text) (a : Addr) (p : PassOne) (l : Text) :
    (bindLabel line label a p).symbols.lookup l =
      (p.symbols.lookup l).or (if label = some l then some a else none) := by
  obtain ⟨rfl, h⟩ | ⟨k, b, rfl, bound, h⟩ | ⟨k, rfl, -, h⟩ := bindLabel_cases line label a p <;> rw [h]
  · simp
  · by_cases hk : k = l
    · subst hk
      simp [failLine, bound]
    · simp [failLine, hk]
  · by_cases hk : k = l
    · subst hk
      simp [List.lookup_append]
    · simp [List.lookup_append, List.lookup_cons, hk, beq_false_of_ne (Ne.symm hk)]

/-- Binding a well-formed label keeps the symbol table well formed (R36, R214). -/
theorem bindLabel_symbolsWellFormed (line : Nat) {label : Option Text} (a : Addr) {p : PassOne}
    (hl : ∀ k, label = some k → Text.isLabel k = true) (h : symbolsWellFormed p.symbols = true) :
    symbolsWellFormed (bindLabel line label a p).symbols = true := by
  obtain ⟨-, hb⟩ | ⟨_, _, -, -, hb⟩ | ⟨k, hk, unbound, hb⟩ := bindLabel_cases line label a p <;> rw [hb]
  · exact h
  · exact h
  · exact symbolsWellFormed_append a h (hl k hk) unbound

/-- What holds of ST after every line of pass one: it is the first addresses of the labels of the placed lines. -/
def symbolsAreFirstAddresses (p : PassOne) : Prop := ∀ l, p.symbols.lookup l = firstAddress p.placed l

theorem passOneWord_symbolsAreFirstAddresses (line : Nat) (st : Statement) {p : PassOne} (h : symbolsAreFirstAddresses p) :
    symbolsAreFirstAddresses (passOneWord line st p) := by
  by_cases inRange : p.lc < Config.memWords
  · intro l
    simp only [passOneWord_inRange line st inRange, bindLabel_lookup, bindLabel_placed, firstAddress_append_singleton, h l]
  · rw [passOneWord_beyond line st (Nat.not_lt.mp inRange)]
    exact h

theorem passOneWord_symbolsWellFormed (line : Nat) {st : Statement} {p : PassOne}
    (hl : ∀ k, st.label = some k → Text.isLabel k = true) (h : symbolsWellFormed p.symbols = true) :
    symbolsWellFormed (passOneWord line st p).symbols = true := by
  by_cases inRange : p.lc < Config.memWords
  · rw [passOneWord_inRange line st inRange]
    exact bindLabel_symbolsWellFormed line _ hl h
  · rw [passOneWord_beyond line st (Nat.not_lt.mp inRange)]
    exact h

/-- ST after pass one maps each label to its first address (R225). -/
theorem passOne_symbolsAreFirstAddresses (source : List Text) : symbolsAreFirstAddresses (passOne source) :=
  (passOneFrom_induct (fun _ p => symbolsAreFirstAddresses p)
    (fail := fun _ _ _ h _ => h)
    (origin := fun _ _ _ h _ => h)
    (skip := fun _ _ h => h)
    (word := fun n _ st _ h _ => passOneWord_symbolsAreFirstAddresses n st h)
    source 0 PassOne.start fun _ => rfl).choose_spec

/-- ST after pass one holds well-formed labels, each once (R36, R214). -/
theorem passOne_symbolsWellFormed (source : List Text) : symbolsWellFormed (passOne source).symbols = true :=
  (passOneFrom_induct (fun _ p => symbolsWellFormed p.symbols = true)
    (fail := fun _ _ _ h _ => h)
    (origin := fun _ _ _ h _ => h)
    (skip := fun _ _ h => h)
    (word := fun n _ _ _ h parsed => passOneWord_symbolsWellFormed n (fun _ => parseLine_isLabel parsed) h)
    source 0 PassOne.start rfl).choose_spec

theorem assembleSource_symbols (source : List Text) : (assembleSource source).symbols = (passOne source).symbols := rfl

/-- Settles O44: each line of pass one keeps ST equal to the first addresses of the placed lines' labels, and well formed. -/
theorem symbolTableHoldsFirstBindings : Obligations.SymbolTableHoldsFirstBindings := by
  intro source
  rw [assembleSource_symbols]
  exact ⟨rfl, passOne_symbolsAreFirstAddresses source, passOne_symbolsWellFormed source⟩

end Sys2Proof.Machine
end

section
/-! The assembler and the run-time state (R211, R236): that `assemble` writes no register, what it returns, and the statement that
its results depend on the source alone. -/

namespace Sys2Proof.Machine

theorem assemble_sameRegisters (s : State) : Claims.sameRegisters s (assemble s) := by
  simp [Claims.sameRegisters]

/-- What `assemble` returns is the diagnostics of the source (R273; log 5). -/
@[simp] theorem returned_assemble (s : State) : returned s (assemble s) = assemblerEntries s.source := by
  simp [returned]

/-- Settles O59: ST, AP and what is returned are each a function of the source. -/
theorem assemblerIgnoresRuntimeState : Obligations.AssemblerIgnoresRuntimeState := by
  intro s s' sameSource
  refine ⟨assemble s, assemble s', rfl, rfl, assemble_sameRegisters s, assemble_source s, ?_, ?_, ?_⟩
  · simp only [assemble_symbols, sameSource]
  · simp only [assemble_program, sameSource]
  · simp only [returned_assemble, sameSource]

end Sys2Proof.Machine
end

section
/-! The host's calls and the log (R278, R291, R292): what a snapshot holds of memory, that every call but `reset` keeps the old log
as the beginning of the new one, and the statements about them. -/

namespace Sys2Proof.Machine

/-! ## state() -/

@[simp] theorem snapshot_words_length (s : State) : (snapshot s).words.length = 4096 := by
  simp [snapshot, Config.memWords]

theorem snapshot_words_getElem? (s : State) {a : Nat} (h : a < 4096) : (snapshot s).words[a]? = some (s.mem.word a) := by
  simp [snapshot, Config.memWords, h]

/-- Settles O56: the registers are the snapshot's own fields, the words are read by `snapshot_words_getElem?`. -/
theorem stateCallOnlyReads : Obligations.StateCallOnlyReads := by
  intro s
  exact ⟨rfl, snapshot s, rfl, rfl, rfl, rfl, rfl, rfl, rfl, rfl, rfl, rfl, rfl, rfl, rfl, rfl, rfl,
    snapshot_words_length s, fun _ => snapshot_words_getElem? s⟩

/-! ## The log -/

/-- What is returned is the rest of the new log exactly when the old log is its beginning (log 5). -/
theorem log_eq_append_returned_iff {s t : State} : t.log = s.log ++ returned s t ↔ s.log <+: t.log :=
  eq_comm.trans List.prefix_iff_eq_append.symm

/-- A micro-step that completes leaves the old log at the beginning: fetch appends at most the entry of R108, decode and execute
append nothing (R293). -/
theorem microStep_log_prefix {debug : Bool} {s t : State} (h : microStep debug s = .ok t) : s.log <+: t.log := by
  rcases hn : s.sc with _ | _ | n
  case zero =>
    simp only [microStep, hn, fetch_eq, Except.ok.injEq] at h
    subst h
    exact List.prefix_append _ _
  all_goals cases hd : decode s.ir
  case succ.zero.error => simp [microStep, hn, decodeStep_eq, hd] at h
  case succ.zero.ok i =>
    simp only [microStep, hn, decodeStep_eq, hd, Except.ok.injEq] at h
    subst h
    exact List.prefix_rfl
  case succ.succ.error => simp [microStep, hn, executeStep, hd] at h
  case succ.succ.ok i =>
    simp only [microStep, hn, executeStep, hd] at h
    obtain ⟨-, -, effect⟩ := micro_ok h
    rw [effect.log]

/-- A tick leaves the old log at the beginning, whether it completes its micro-step, raises an error (R301) or only notices the
halt (R110). -/
theorem tick_log_prefix {debug : Bool} {s t : State} (h : tick debug s = .next t) : s.log <+: t.log := by
  cases halted : s.halted with
  | true =>
    rw [tick_halted debug halted] at h
    cases h
    exact List.prefix_append _ _
  | false =>
    rw [tick_running debug halted] at h
    obtain completed | ⟨x, -, rfl⟩ := settle_next h
    · exact microStep_log_prefix completed
    · exact List.prefix_append _ _

/-- Every host call but `reset` leaves the old log at the beginning of the new one (R291, R292). -/
theorem hostCall_log_prefix {op : HostOp} {s t : State} (h : hostCall op s = .next t) (hop : op ≠ .reset) :
    s.log <+: t.log := by
  cases op with
  | tick debug => exact tick_log_prefix h
  | assemble =>
    cases h
    exact List.prefix_append _ _
  | loadProgram lines =>
    cases h
    exact List.prefix_rfl
  | state =>
    cases h
    exact List.prefix_rfl
  | reset => exact absurd rfl hop

/-- Settles O60: `hostCall_log_prefix` for every call but `reset`; what `reset`, `load_program` and `state` leave is
`resetCore_log`, `loadProgram_log` and the state itself. -/
theorem logIsAppendedTo : Obligations.LogIsAppendedTo := by
  intro op s t h
  refine ⟨fun hop => log_eq_append_returned_iff.mpr (hostCall_log_prefix h hop), ?_, ?_⟩
  · rintro rfl
    cases h
    exact resetCore_log s
  · rintro (⟨lines, rfl⟩ | rfl) <;> cases h
    · exact loadProgram_log lines s
    · rfl

end Sys2Proof.Machine
end

section
/-! Halt and the host's calls (R308): what each call but `reset` answers while halted, what any sequence of them answers, and what
`reset` leaves. -/

namespace Sys2Proof.Machine

/-! ## Registers that agree -/

theorem sameRegisters_refl (s : State) : Claims.sameRegisters s s := by
  simp [Claims.sameRegisters]

/-- Two states have the same registers exactly when their snapshots do, memory put aside (R20, R38). -/
theorem sameRegisters_iff_snapshot {s t : State} :
    Claims.sameRegisters s t ↔ { snapshot t with words := [] } = { snapshot s with words := [] } := by
  simp only [Claims.sameRegisters, snapshot, Snapshot.mk.injEq]
  tauto

theorem sameRegisters_trans {s t u : State} (h : Claims.sameRegisters s t) (h' : Claims.sameRegisters t u) :
    Claims.sameRegisters s u :=
  sameRegisters_iff_snapshot.mpr ((sameRegisters_iff_snapshot.mp h').trans (sameRegisters_iff_snapshot.mp h))

theorem sameRegisters_halted {s t : State} (h : Claims.sameRegisters s t) : t.halted = s.halted :=
  congrArg Snapshot.halted (sameRegisters_iff_snapshot.mp h)

/-! ## While halted -/

theorem noticeHalted_sameRegisters (s : State) : Claims.sameRegisters s (noticeHalted s) := by
  simp [Claims.sameRegisters]

theorem loadProgram_sameRegisters (lines : List Text) (s : State) : Claims.sameRegisters s (loadProgram lines s) := by
  simp [Claims.sameRegisters]

/-- While halted every host call but `reset` answers a state with the same registers (R110, R272, R275, R276). -/
theorem hostCall_sameRegisters_of_halted {op : HostOp} {s : State} (halted : s.halted = true) (hop : op ≠ .reset) :
    ∃ t, hostCall op s = .next t ∧ Claims.sameRegisters s t := by
  cases op with
  | loadProgram lines => exact ⟨_, rfl, loadProgram_sameRegisters lines s⟩
  | assemble => exact ⟨_, rfl, assemble_sameRegisters s⟩
  | tick debug => exact ⟨_, tick_halted debug halted, noticeHalted_sameRegisters s⟩
  | state => exact ⟨_, rfl, sameRegisters_refl s⟩
  | reset => exact absurd rfl hop

theorem hostRun_cons_of_next {op : HostOp} {s t : State} (ops : List HostOp) (h : hostCall op s = .next t) :
    hostRun (op :: ops) s = hostRun ops t := by
  simp [hostRun, h]

/-- While halted every sequence of host calls without `reset` answers a state with the same registers (R308). -/
theorem hostRun_sameRegisters_of_halted {ops : List HostOp} {s : State} (halted : s.halted = true)
    (noReset : HostOp.reset ∉ ops) : ∃ t, hostRun ops s = .next t ∧ Claims.sameRegisters s t := by
  induction ops generalizing s with
  | nil => exact ⟨s, rfl, sameRegisters_refl s⟩
  | cons op ops ih =>
    obtain ⟨notFirst, notLater⟩ := not_or.mp (mt List.mem_cons.mpr noReset)
    obtain ⟨t, call, same⟩ := hostCall_sameRegisters_of_halted halted (Ne.symm notFirst)
    obtain ⟨u, run, same'⟩ := ih ((sameRegisters_halted same).trans halted) notLater
    exact ⟨u, (hostRun_cons_of_next ops call).trans run, sameRegisters_trans same same'⟩

/-- What a tick returns while halted is the entry of R110 (log 5). -/
@[simp] theorem returned_noticeHalted (s : State) : returned s (noticeHalted s) = [haltedEntry] := by
  simp [returned]

/-! ## reset() -/

/-- `reset()` leaves every register and memory word 0, Halted 0 and the log empty (R330). -/
theorem resetCore_allZero (s : State) : Claims.allZero (resetCore s) := by
  simp [Claims.allZero, Memory.word, Memory.unlisted]

/-- Settles O11: a sequence without `reset` by induction on its calls, a tick by `tick_halted`, `reset` by `resetCore_allZero`. -/
theorem haltIsLeftOnlyByReset : Obligations.HaltIsLeftOnlyByReset := by
  refine ⟨fun ops s halted noReset => ?_, fun debug s halted => ?_, fun s => ?_⟩
  · obtain ⟨t, run, same⟩ := hostRun_sameRegisters_of_halted halted noReset
    exact ⟨t, run, (sameRegisters_halted same).trans halted, same⟩
  · refine ⟨noticeHalted s, tick_halted debug halted, noticeHalted_mem s, ?_⟩
    simp [haltedEntry]
  · exact ⟨resetCore s, rfl, resetCore_halted s, resetCore_allZero s⟩

end Sys2Proof.Machine
end

section
/-! Reset and construction (R330): the constructed state is what `reset()` answers from it, so one zero lemma covers both. -/

namespace Sys2Proof.Machine

/-- `reset()` answers its core from every state (R279). -/
theorem hostCall_reset (s : State) : hostCall .reset s = .next (resetCore s) := rfl

/-- Construction leaves nothing for `reset()` to change: its program data is empty too (R39, R271). -/
theorem resetCore_reset : resetCore State.reset = State.reset := rfl

/-- The constructed state is zero throughout, because `reset()` would leave it as it is (R39, R330). -/
theorem reset_allZero : Claims.allZero State.reset :=
  resetCore_reset ▸ resetCore_allZero State.reset

/-- Settles O1: `resetCore_allZero` for what `reset()` answers, `reset_allZero` for construction. -/
theorem resetAndConstructionZeroEverything : Obligations.ResetAndConstructionZeroEverything :=
  ⟨fun s => ⟨resetCore s, hostCall_reset s, resetCore_allZero s⟩, reset_allZero⟩

end Sys2Proof.Machine
end

section
/-! The encoding (spec/30_encoding.md): that the encoder and the decoder are inverse (R85), that the rows of the opcode table decide
the decoder's answer (R86), and how many words are illegal (R81). -/

namespace Sys2Proof

/-! ## Encoder and decoder -/

theorem decode_encode (i : Instr) : decode (encode i) = .ok i := by
  cases i with
  | and ind addr | add ind addr | lda ind addr | sta ind addr | bun ind addr | bsa ind addr | isz ind addr =>
    simp [encode, decode]
  | _ => rfl

/-- The word of a selector that its table holds is the word of the table's instruction (R76, R77). -/
theorem encode_of_lookup {ind : Bool} {addr : Addr} {i : Instr}
    (h : (if ind then ioiTable else rriTable).lookup addr = some i) : encode i = encodeMri 7 ind addr := by
  cases ind with
  | false => exact (rriTable_encode _ (mem_of_lookup h)).1.symm
  | true => exact (ioiTable_encode _ (mem_of_lookup h)).1.symm

theorem encode_of_decode {w : Word} {i : Instr} (h : decode w = .ok i) : encode i = w := by
  by_cases selector : opcodeField w = 7
  · rw [decode_selector selector] at h
    split at h
    · rename_i j found
      cases h
      rw [encode_of_lookup found, ← selector, encodeMri_fields]
    · cases h
  · obtain ⟨j, hj, -, encoded⟩ := decode_mri selector
    rw [h] at hj
    cases hj
    exact encoded

/-- The words that decode to an instruction are its encoding alone. -/
theorem decode_eq_ok_iff {w : Word} {i : Instr} : decode w = .ok i ↔ w = encode i :=
  ⟨fun h => (encode_of_decode h).symm, fun h => h ▸ decode_encode i⟩

/-- Settles O40: `decode_encode` by the fields of an encoded word, `encode_of_decode` by the class of the word. -/
theorem encodeAndDecodeAreInverse : Obligations.EncodeAndDecodeAreInverse :=
  ⟨decode_encode, fun _ _ => encode_of_decode⟩

/-! ## The rows of the opcode table -/

theorem encodesToItsRow (i : Instr) : Laws.EncodesToItsRow.Statement i := by
  cases i with
  | and ind addr => exact Laws.EncodesToItsRow.and ind addr
  | add ind addr => exact Laws.EncodesToItsRow.add ind addr
  | lda ind addr => exact Laws.EncodesToItsRow.lda ind addr
  | sta ind addr => exact Laws.EncodesToItsRow.sta ind addr
  | bun ind addr => exact Laws.EncodesToItsRow.bun ind addr
  | bsa ind addr => exact Laws.EncodesToItsRow.bsa ind addr
  | isz ind addr => exact Laws.EncodesToItsRow.isz ind addr
  | cla => exact Laws.EncodesToItsRow.cla
  | cle => exact Laws.EncodesToItsRow.cle
  | cma => exact Laws.EncodesToItsRow.cma
  | cme => exact Laws.EncodesToItsRow.cme
  | cir => exact Laws.EncodesToItsRow.cir
  | cil => exact Laws.EncodesToItsRow.cil
  | inc => exact Laws.EncodesToItsRow.inc
  | spa => exact Laws.EncodesToItsRow.spa
  | sna => exact Laws.EncodesToItsRow.sna
  | sza => exact Laws.EncodesToItsRow.sza
  | sze => exact Laws.EncodesToItsRow.sze
  | hlt => exact Laws.EncodesToItsRow.hlt
  | inp => exact Laws.EncodesToItsRow.inp
  | out => exact Laws.EncodesToItsRow.out
  | ski => exact Laws.EncodesToItsRow.ski
  | sko => exact Laws.EncodesToItsRow.sko
  | ion => exact Laws.EncodesToItsRow.ion
  | iof => exact Laws.EncodesToItsRow.iof

/-- A legal word is in the row of its instruction's mnemonic. -/
theorem row_of_decode {w : Word} {i : Instr} (h : decode w = .ok i) :
    ∃ r ∈ opcodeRows, r.mnemonic = mnemonicOf i ∧ w &&& r.mask = r.pattern := by
  rw [← encode_of_decode h]
  exact (encodesToItsRow i).2

theorem opcodeRows_mnemonic_inj : ∀ r ∈ opcodeRows, ∀ r' ∈ opcodeRows, r.mnemonic = r'.mnemonic → r = r' := by decide

/-- Different rows differ in a bit that both masks keep. -/
theorem opcodeRows_disjoint :
    ∀ r ∈ opcodeRows, ∀ r' ∈ opcodeRows, r.pattern &&& r'.mask = r'.pattern &&& r.mask → r = r' := by decide

/-- No word is in two rows. -/
theorem row_unique {w : Word} {r r' : OpcodeRow} (hr : r ∈ opcodeRows) (hr' : r' ∈ opcodeRows)
    (hw : w &&& r.mask = r.pattern) (hw' : w &&& r'.mask = r'.pattern) : r = r' := by
  refine opcodeRows_disjoint r hr r' hr' ?_
  rw [← hw, ← hw', BitVec.and_assoc, BitVec.and_assoc, BitVec.and_comm r.mask]

/-- A row is a memory-reference opcode, or one legal word. -/
theorem opcodeRows_classes : ∀ r ∈ opcodeRows,
    r.mask = 0x7000#16 ∧ r.pattern ≠ 0x7000#16 ∨ r.mask = 0xFFFF#16 ∧ (decode r.pattern).toOption.isSome = true := by decide

theorem legal_of_row {w : Word} {r : OpcodeRow} (hr : r ∈ opcodeRows) (hw : w &&& r.mask = r.pattern) :
    ∃ i, decode w = .ok i := by
  obtain ⟨mask, pattern⟩ | ⟨mask, legal⟩ := opcodeRows_classes r hr
  · have : opcodeField w ≠ 7 := by
      intro selector
      rw [mask, and_opcodeMask, selector] at hw
      exact pattern hw.symm
    obtain ⟨i, hi, -⟩ := decode_mri this
    exact ⟨i, hi⟩
  · have all : w &&& 0xFFFF#16 = w := BitVec.and_allOnes
    rw [mask, all] at hw
    rw [← hw] at legal
    cases hd : decode w with
    | ok i => exact ⟨i, rfl⟩
    | error x => simp [hd, Except.toOption] at legal

/-- Settles O41: a row's words are legal, a legal word is in its mnemonic's row, and it is in no other. -/
theorem opcodeRowsDecide : Obligations.OpcodeRowsDecide := by
  intro r hr w
  constructor
  · intro hw
    obtain ⟨i, hi⟩ := legal_of_row hr hw
    obtain ⟨r', hr', name, hw'⟩ := row_of_decode hi
    exact ⟨i, hi, by rw [row_unique hr hr' hw hw', name]⟩
  · rintro ⟨i, hi, name⟩
    obtain ⟨r', hr', name', hw'⟩ := row_of_decode hi
    rwa [opcodeRows_mnemonic_inj r hr r' hr' (name.symm.trans name'.symm)]

/-! ## Illegal words -/

theorem lookup_eq_none_iff_notMem {α β : Type} [BEq α] [LawfulBEq α] {l : List (α × β)} {a : α} :
    l.lookup a = none ↔ a ∉ l.map Prod.fst := by
  simp only [List.lookup_eq_none_iff, List.mem_map, bne_iff_ne]
  exact ⟨fun h ⟨p, hp, e⟩ => h p hp e.symm, fun h p hp e => h ⟨p, hp, e.symm⟩⟩

/-- A word with opcode field 7 is illegal exactly when its table does not hold its selector (R81). -/
theorem decode_selector_illegal_iff {w : Word} (h : opcodeField w = 7) :
    decode w = .error (.illegalOpcode w) ↔
      addressField w ∉ (if indirectBit w then ioiTable else rriTable).map Prod.fst := by
  rw [decode_selector h, ← lookup_eq_none_iff_notMem]
  cases (if indirectBit w then ioiTable else rriTable).lookup (addressField w) <;> simp

/-- Of the 4096 selectors, as many are in a list of addresses as the list has. -/
theorem length_filter_notMem {keys : List Addr} (nodup : keys.Nodup) :
    ((List.range 4096).filter fun n => BitVec.ofNat 12 n ∉ keys).length + keys.length = 4096 := by
  have perm : ((List.range 4096).filter fun n => BitVec.ofNat 12 n ∈ keys).Perm (keys.map BitVec.toNat) := by
    rw [List.perm_ext_iff_of_nodup (List.nodup_range.filter _) (nodup.map fun _ _ => BitVec.eq_of_toNat_eq)]
    intro n
    simp only [List.mem_filter, List.mem_range, decide_eq_true_eq, List.mem_map]
    constructor
    · rintro ⟨hn, hk⟩
      exact ⟨_, hk, Nat.mod_eq_of_lt hn⟩
    · rintro ⟨a, ha, rfl⟩
      exact ⟨a.isLt, by simpa using ha⟩
  have parts := List.length_eq_length_filter_add (l := List.range 4096) fun n => BitVec.ofNat 12 n ∈ keys
  rw [perm.length_eq, List.length_map, List.length_range] at parts
  simp only [← decide_not] at parts
  omega

/-- Of the 4096 words from `base` on, with opcode field 7 and one class bit, all are illegal but those of the class's table
(R81). -/
theorem illegal_count {base : Nat} (ind : Bool)
    (words : ∀ n < 4096, BitVec.ofNat 16 (base + n) = encodeMri 7 ind (BitVec.ofNat 12 n))
    (nodup : ((if ind then ioiTable else rriTable).map Prod.fst).Nodup) :
    ((List.range 4096).filter fun n =>
        decode (BitVec.ofNat 16 (base + n)) = .error (.illegalOpcode (BitVec.ofNat 16 (base + n)))).length +
      (if ind then ioiTable else rriTable).length = 4096 := by
  have illegal : ∀ n ∈ List.range 4096,
      decide (decode (BitVec.ofNat 16 (base + n)) = .error (.illegalOpcode (BitVec.ofNat 16 (base + n)))) =
        decide (BitVec.ofNat 12 n ∉ (if ind then ioiTable else rriTable).map Prod.fst) := by
    intro n hn
    rw [decide_eq_decide, words n (List.mem_range.mp hn), decode_selector_illegal_iff (opcodeField_encodeMri 7 ind _),
      indirectBit_encodeMri, addressField_encodeMri]
  rw [List.filter_congr illegal, ← List.length_map Prod.fst]
  exact length_filter_notMem nodup

/-- Settles O42: the classes by `decode_mri` and `decode_selector_illegal_iff`, the counts by `illegal_count`. -/
theorem illegalWords : Obligations.IllegalWords := by
  refine ⟨fun w hw => ?_, fun w hw => decode_selector_illegal_iff hw, ?_, ?_⟩
  · obtain ⟨i, hi, mri, -⟩ := decode_mri hw
    exact ⟨i, hi, mri⟩
  · have := illegal_count false (base := 0x7000) (fun n hn => by simp [encodeMri, Nat.mod_eq_of_lt hn]) (by decide)
    simpa [rriTable] using this
  · have := illegal_count true (base := 0xF000) (fun n hn => by simp [encodeMri, Nat.mod_eq_of_lt hn]) (by decide)
    simpa [ioiTable] using this

/-- Settles O43: the encodings are the words, and the illegal ones are in no table. -/
theorem sampleWordsDecode : Obligations.SampleWordsDecode :=
  ⟨decode_encode (.lda false 0x004#12), decode_encode (.lda true 0x004#12), decode_encode (.and true 0x123#12),
    decode_encode (.isz true 0xFFF#12), decode_encode .hlt, decode_encode .cir, decode_encode .iof,
    (decode_selector_illegal_iff rfl).mpr (by decide), (decode_selector_illegal_iff rfl).mpr (by decide)⟩

end Sys2Proof
end

section
/-! The tick (spec/40_cycle.md): one equation per micro-step, the five ways in which a tick answers a next state, and what follows
from them for SC (R104), the fault (R105), Halted (R30, R109), the log (R293) and the writers of each register (R22 to R36). -/

namespace Sys2Proof.Machine

/-! ## The tick, micro-step by micro-step -/

/-- The state that the fetch leaves (R100, R108). -/
def fetched (debug : Bool) (s : State) : State :=
  { s with ar := s.pc, ir := s.mem.word s.pc.toNat, pc := s.pc + 1, sc := 1,
           log := s.log ++ if debug then [fetchEntry s.pc (s.mem.word s.pc.toNat)] else [] }

/-- The state that the decode of the legal word of `i` leaves (R101). -/
def decoded (i : Instr) (s : State) : State := { s with ar := decodedAddress s.mem i, sc := 2 }

theorem tick_fetch (debug : Bool) {s : State} (running : s.halted = false) (hs : s.sc = 0) :
    tick debug s = .next (fetched debug s) := by
  simp only [tick_running debug running, microStep, hs, fetch_eq, settle, fetched]

/-- What decode puts in AR is what the instruction's operands give, or its selector (R101, D6). -/
theorem decodedAddress_of_decode {w : Word} {i : Instr} (h : decode w = .ok i) (m : Memory) :
    (if isMri i && indirectBit w then addressField (m.word (addressField w).toNat) else addressField w) =
      decodedAddress m i := by
  obtain rfl := decode_eq_ok_iff.mp h
  cases i with
  | and ind addr | add ind addr | lda ind addr | sta ind addr | bun ind addr | bsa ind addr | isz ind addr =>
    simp [encode, isMri, decodedAddress]
  | _ => rfl

theorem tick_decode (debug : Bool) {s : State} {i : Instr} (running : s.halted = false) (hs : s.sc = 1)
    (legal : decode s.ir = .ok i) : tick debug s = .next (decoded i s) := by
  simp only [tick_running debug running, microStep, hs, decodeStep_eq, legal, decodedAddress_of_decode legal, settle, decoded]

theorem tick_illegal (debug : Bool) {s : State} (running : s.halted = false) (hs : s.sc = 1)
    (illegal : decode s.ir = .error (.illegalOpcode s.ir)) :
    tick debug s = .next (takeError (.illegalOpcode s.ir (s.pc - 1)) s) := by
  simp only [tick_running debug running, microStep, hs, decodeStep_eq, illegal, settle, takeStop]

theorem tick_execute_illegal (debug : Bool) {s : State} (running : s.halted = false) (hs : 2 ≤ s.sc)
    (illegal : decode s.ir = .error (.illegalOpcode s.ir)) : tick debug s = .fault .unreachable := by
  obtain ⟨n, hn⟩ : ∃ n, s.sc = n + 2 := ⟨s.sc - 2, by omega⟩
  simp only [tick_running debug running, microStep, hn, executeStep, illegal, settle, takeStop]

/-- An execute tick answers the state of the micro-step of the instruction in IR. -/
theorem tick_of_micro (debug : Bool) {s t : State} {i : Instr} (running : s.halted = false) (legal : decode s.ir = .ok i)
    (completed : micro i s = .ok t) : tick debug s = .next t := by
  rw [tick_execute debug running (micro_ok completed).1 legal, completed]
  rfl

/-! ## The five ways in which a tick answers a next state -/

/-- The next states of a tick, by what the tick does: the notice of R110, the fetch of R100, the error of R102, the decode of R101,
or an execute micro-step (R103). -/
inductive TickCase (debug : Bool) (s : State) : State → Prop where
  | notice (halted : s.halted = true) : TickCase debug s (noticeHalted s)
  | fetch (running : s.halted = false) (sc : s.sc = 0) : TickCase debug s (fetched debug s)
  | illegal (running : s.halted = false) (sc : s.sc = 1) (illegal : decode s.ir = .error (.illegalOpcode s.ir)) :
      TickCase debug s (takeError (.illegalOpcode s.ir (s.pc - 1)) s)
  | decode (running : s.halted = false) (sc : s.sc = 1) {i : Instr} (legal : decode s.ir = .ok i) :
      TickCase debug s (decoded i s)
  | execute (running : s.halted = false) {i : Instr} {t : State} (legal : decode s.ir = .ok i) (started : 2 ≤ s.sc)
      (last : s.sc ≤ lastSc i) (effect : MicroEffect i s t) : TickCase debug s t

theorem zero_or_one_or_two_le (n : Nat) : n = 0 ∨ n = 1 ∨ 2 ≤ n := by omega

theorem tickCase_of_tick {debug : Bool} {s t : State} (h : tick debug s = .next t) : TickCase debug s t := by
  cases halted : s.halted with
  | true =>
    rw [tick_halted debug halted] at h
    cases h
    exact .notice halted
  | false =>
    obtain hs | hs | hs := zero_or_one_or_two_le s.sc
    · rw [tick_fetch debug halted hs] at h
      cases h
      exact .fetch halted hs
    · obtain illegal | ⟨i, legal⟩ := decode_cases s.ir
      · rw [tick_illegal debug halted hs illegal] at h
        cases h
        exact .illegal halted hs illegal
      · rw [tick_decode debug halted hs legal] at h
        cases h
        exact .decode halted hs legal
    · obtain illegal | ⟨i, legal⟩ := decode_cases s.ir
      · rw [tick_execute_illegal debug halted hs illegal] at h
        cases h
      · rw [tick_execute debug halted hs legal] at h
        obtain ⟨started, last, u, completed, effect⟩ | ⟨-, failed⟩ := micro_spec i s
        · rw [completed] at h
          cases h
          exact .execute halted legal started last effect
        · rw [failed] at h
          cases h

/-! ## Fetch and decode -/

/-- Settles O6: the fetch micro-step, with the debug entry and without. -/
theorem fetchTick : Obligations.FetchTick := by
  intro s running hs
  rw [tick_fetch false running hs, tick_fetch true running hs]
  simp [fetched, fetchEntry]

theorem addressField_eq_setWidth (w : Word) : addressField w = w.setWidth 12 := by
  apply BitVec.eq_of_toNat_eq
  simp [addressField_toNat]

/-- Settles O7: the decode micro-step, by whether the word is an indirect memory-reference word. -/
theorem decodeTick : Obligations.DecodeTick := by
  intro debug s i running hs legal
  rw [tick_decode debug running hs legal, decoded, ← decodedAddress_of_decode legal]
  simp only [← addressField_eq_setWidth]
  constructor
  · intro mri (indirect : indirectBit s.ir = true)
    simp [mri, indirect]
  · rintro (notMri | (direct : indirectBit s.ir = false))
    · simp [notMri]
    · simp [direct]

/-! ## Faults -/

/-- Settles O12: only the execute micro-steps can be missing, and `micro_spec` says which are. -/
theorem tickFaultsExactlyWithoutMicroStep : Obligations.TickFaultsExactlyWithoutMicroStep := by
  intro debug s
  cases halted : s.halted with
  | true => simp [tick_halted debug halted]
  | false =>
    obtain hs | hs | hs := zero_or_one_or_two_le s.sc
    · simp [tick_fetch debug halted hs, hs]
    · obtain illegal | ⟨i, legal⟩ := decode_cases s.ir
      · simp [tick_illegal debug halted hs illegal, hs]
      · simp [tick_decode debug halted hs legal, hs]
    · obtain illegal | ⟨i, legal⟩ := decode_cases s.ir
      · simp [tick_execute_illegal debug halted hs illegal, hs, illegal]
      · rw [tick_execute debug halted hs legal]
        obtain ⟨_, last, u, completed, -⟩ | ⟨missing, failed⟩ := micro_spec i s
        · simp [completed, settle, legal, last]
        · simp [failed, settle, takeStop, legal, hs]
          omega

/-! ## SC, Halted and the log -/

/-- Settles O13: what each of the five ways leaves in SC and Halted. -/
theorem sequenceCounterDiscipline : Obligations.SequenceCounterDiscipline := by
  intro debug s t running h
  cases tickCase_of_tick h with
  | notice halted => simp [running] at halted
  | fetch _ sc => simp [fetched, sc]
  | illegal _ sc _ => simp [sc]
  | decode _ sc _ => simp [decoded, sc, running]
  | execute _ _ started last effect =>
    have := effect.sc
    split at this <;> omega

theorem eq_two_of_hlt {n : Nat} (started : 2 ≤ n) (last : n ≤ lastSc .hlt) : n = 2 := by
  simp only [lastSc] at last
  omega

/-- A tick of a running machine halts it exactly at HLT's micro-step and at the decode of an illegal word (R30). -/
theorem tick_halts_iff {debug : Bool} {s t : State} (running : s.halted = false) (h : tick debug s = .next t) :
    t.halted = true ↔
      (s.sc = 2 ∧ decode s.ir = .ok .hlt) ∨ (s.sc = 1 ∧ decode s.ir = .error (.illegalOpcode s.ir)) := by
  cases tickCase_of_tick h with
  | notice halted => simp [running] at halted
  | fetch _ sc => simp [fetched, sc, running]
  | illegal _ sc illegal => simp [sc, illegal]
  | decode _ sc legal => simp [decoded, sc, legal, running]
  | execute _ legal started last effect =>
    rw [effect.halted, running, legal]
    constructor
    · rintro (_ | rfl)
      · contradiction
      · exact .inl ⟨eq_two_of_hlt started last, rfl⟩
    · rintro (⟨_, hlt⟩ | ⟨_, illegal⟩)
      · exact .inr (by simpa using hlt)
      · cases illegal

/-- Settles O10: `tick_halts_iff` for a running machine, `hostCall_sameRegisters_of_halted` and `noticeHalted` for a halted one. -/
theorem haltedIsSetAndClearedAsStated : Obligations.HaltedIsSetAndClearedAsStated := by
  refine ⟨fun debug s t => tick_halts_iff, takeError_halted, fun op s t halted h => ?_, fun debug s t halted h => ?_⟩
  · by_cases hop : op = .reset
    · subst hop
      cases h
      simp
    · obtain ⟨u, call, same⟩ := hostCall_sameRegisters_of_halted halted hop
      rw [h] at call
      cases call
      simp [hop, sameRegisters_halted same, halted]
  · rw [tick_halted debug halted] at h
    cases h
    exact ⟨noticeHalted_sameRegisters s, noticeHalted_mem s, noticeHalted_source s, noticeHalted_symbols s,
      noticeHalted_program s⟩

/-- Settles O14: the entry of each of the five ways. -/
theorem tickEmitsAtMostOneEntry : Obligations.TickEmitsAtMostOneEntry := by
  intro debug s t h
  cases tickCase_of_tick h with
  | notice halted => exact .inr (.inr (.inr ⟨noticeHalted_log s, halted⟩))
  | fetch running sc =>
    cases debug with
    | false => exact .inl ⟨by simp [fetched], running⟩
    | true => exact .inr (.inl ⟨_, _, rfl, running, sc, rfl⟩)
  | illegal running sc _ => exact .inr (.inr (.inl ⟨_, _, takeError_log _ s, running, sc⟩))
  | decode running _ _ => exact .inl ⟨rfl, running⟩
  | execute running _ _ _ effect => exact .inl ⟨effect.log, running⟩

/-! ## The writers of the registers and of memory -/

/-- Settles O32: the fetch writes IR, and none of the five ways writes the others. -/
theorem ticksLeaveUntouchedRegisters : Obligations.TicksLeaveUntouchedRegisters := by
  intro debug s t h
  cases tickCase_of_tick h with
  | notice _ => simp
  | fetch running sc => simp [fetched, running, sc]
  | illegal _ _ _ => simp
  | decode _ _ _ => simp [decoded]
  | execute _ _ _ _ effect =>
    exact ⟨fun _ => effect.ir, effect.tr, effect.inpr, effect.source, effect.symbols, effect.program⟩

/-- Settles O33: only an execute micro-step writes AC or E, and `MicroEffect` names its instruction. -/
theorem onlyNamedInstructionsWriteAcAndE : Obligations.OnlyNamedInstructionsWriteAcAndE := by
  intro debug s t h
  cases tickCase_of_tick h with
  | notice _ => simp
  | fetch _ _ => simp [fetched]
  | illegal _ _ _ => simp
  | decode _ _ _ => simp [decoded]
  | execute running legal _ _ effect =>
    exact ⟨fun changed => ⟨running, _, legal, effect.ac.resolve_left changed⟩,
      fun changed => ⟨running, _, legal, effect.e.resolve_left changed⟩⟩

/-- Settles O34: the fetch moves PC on, decode leaves it, and `MicroEffect` names the execute micro-steps that write it. -/
theorem programCounterWriters : Obligations.ProgramCounterWriters := by
  intro debug s t running h
  cases tickCase_of_tick h with
  | notice halted => simp [running] at halted
  | fetch _ sc => simp [fetched, sc]
  | illegal _ sc _ => simp [sc]
  | decode _ sc _ => simp [decoded, sc]
  | execute _ legal started _ effect =>
    exact ⟨fun sc => by omega, fun sc => by omega, fun _ changed => ⟨_, legal, effect.pc.resolve_left changed⟩⟩

/-- The instructions that store, by their mnemonics (R57). -/
theorem eq_of_storing_mnemonic {i : Instr} (h : mnemonicOf i ∈ ["STA".toList, "BSA".toList, "ISZ".toList]) :
    ∃ ind addr, i = .sta ind addr ∨ i = .bsa ind addr ∨ i = .isz ind addr := by
  cases i with
  | sta ind addr => exact ⟨ind, addr, .inl rfl⟩
  | bsa ind addr => exact ⟨ind, addr, .inr (.inl rfl)⟩
  | isz ind addr => exact ⟨ind, addr, .inr (.inr rfl)⟩
  | _ => simp [mnemonicOf] at h

/-- Settles O35: only an execute micro-step writes memory, at most at AR, and `MicroEffect` names its instruction. -/
theorem tickStoresOnlyAtAr : Obligations.TickStoresOnlyAtAr := by
  intro debug s t h
  cases tickCase_of_tick h with
  | notice _ => simp
  | fetch _ _ => simp [fetched]
  | illegal _ _ _ => simp
  | decode _ _ _ => simp [decoded]
  | execute running legal started _ effect =>
    obtain unchanged | ⟨v, stored, storing⟩ := effect.mem
    · simp [unchanged]
    · refine ⟨fun b hb => by rw [stored, Memory.word_setWord_ne s.mem v hb], fun _ => ⟨running, started, ?_⟩⟩
      obtain ⟨ind, addr, hi⟩ := eq_of_storing_mnemonic storing
      exact ⟨ind, addr, by simpa [legal] using hi⟩

end Sys2Proof.Machine
end

section
/-! The invariant (R29, R104, R105): that every tick, host call and step of a state that meets it answers a state that meets it
again, and so every reachable state meets it. The step comes down to ticks by `step_eq_ticks`. -/

namespace Sys2Proof.Machine

/-! ## Ticks and host calls -/

theorem inv_fetched (debug : Bool) {s : State} (h : s.Inv) (running : s.halted = false) : (fetched debug s).Inv :=
  { h with
    scRange := by simp [fetched, Config.scMax]
    running := fun _ => rfl
    stopped := by simp [fetched, running] }

theorem inv_decoded {i : Instr} {s : State} (h : s.Inv) (running : s.halted = false) (legal : decode s.ir = .ok i) :
    (decoded i s).Inv :=
  { h with
    scRange := by simp [decoded, Config.scMax]
    running := fun _ => by simp [sequenced, decoded, legal, hasMicroStep, (lastSc_bounds i).1]
    stopped := by simp [decoded, running] }

theorem inv_illegal {s : State} (x : RuntimeError) (h : s.Inv) (hs : s.sc = 1)
    (illegal : decode s.ir = .error (.illegalOpcode s.ir)) : (takeError x s).Inv :=
  { h with
    running := by simp
    stopped := fun _ => by simp [haltState, hs, illegal] }

theorem MicroEffect.memWf {i : Instr} {s t : State} (effect : MicroEffect i s t) (h : s.mem.wf = true) : t.mem.wf = true := by
  obtain unchanged | ⟨v, stored, -⟩ := effect.mem
  · rw [unchanged, h]
  · rw [stored]
    exact Memory.wf_setWord v h s.ar.isLt

/-- After an execute micro-step SC is 0, or names the instruction's next micro-step (R104). -/
theorem MicroEffect.sc_cases {i : Instr} {s t : State} (effect : MicroEffect i s t) (last : s.sc ≤ lastSc i) :
    t.sc = 0 ∨ t.sc = s.sc + 1 ∧ s.sc + 1 ≤ lastSc i := by
  have := effect.sc
  split at this <;> omega

theorem inv_executed {i : Instr} {s t : State} (h : s.Inv) (running : s.halted = false) (legal : decode s.ir = .ok i)
    (started : 2 ≤ s.sc) (last : s.sc ≤ lastSc i) (effect : MicroEffect i s t) : t.Inv where
  memWf := effect.memWf h.memWf
  scRange := by
    have : lastSc i ≤ Config.scMax := (lastSc_bounds i).2
    obtain done | ⟨more, _⟩ := effect.sc_cases last <;> omega
  running := fun _ => by
    obtain done | ⟨more, hasNext⟩ := effect.sc_cases last
    · simp [sequenced, done]
    · simp [sequenced, effect.ir, legal, hasMicroStep, more, hasNext]
      omega
  stopped := fun halted => by
    obtain still | rfl := effect.halted.mp halted
    · simp [running] at still
    · have done : t.sc = 0 := by simpa [eq_two_of_hlt started last, lastSc] using effect.sc
      simp [haltState, done]
  trZero := effect.tr.trans h.trZero
  inprZero := effect.inpr.trans h.inprZero
  fgiZero := effect.fgi.elim (·.trans h.fgiZero) id
  fgoZero := effect.fgo.elim (·.trans h.fgoZero) id
  symbolsWf := effect.symbols ▸ h.symbolsWf

/-- Every next state of a tick meets the invariant, by the five ways of `TickCase`. -/
theorem tick_keeps_inv {debug : Bool} {s t : State} (h : s.Inv) (ht : tick debug s = .next t) : t.Inv := by
  cases tickCase_of_tick ht with
  | notice _ => exact { h with }
  | fetch running _ => exact inv_fetched debug h running
  | illegal _ sc illegal => exact inv_illegal _ h sc illegal
  | decode running _ legal => exact inv_decoded h running legal
  | execute running legal started last effect => exact inv_executed h running legal started last effect

/-- A state that meets the invariant has a tick (R105). -/
theorem tick_of_inv (debug : Bool) {s : State} (h : s.Inv) : ∃ t, tick debug s = .next t ∧ t.Inv := by
  have progress : ∃ t, tick debug s = .next t := by
    cases halted : s.halted with
    | true => exact ⟨_, tick_halted debug halted⟩
    | false =>
      obtain ⟨t, ht, -⟩ := tick_sequenced debug halted (h.running halted)
      exact ⟨t, ht⟩
  obtain ⟨t, ht⟩ := progress
  exact ⟨t, ht, tick_keeps_inv h ht⟩

/-- Settles O2: every clause is about the constants of the reset state. -/
theorem resetStateMeetsInv : Obligations.ResetStateMeetsInv := by
  constructor <;> decide

theorem inv_resetCore {s : State} (h : symbolsWellFormed s.symbols = true) : (resetCore s).Inv :=
  { resetStateMeetsInv with symbolsWf := h }

/-- Settles O4: a tick by `tick_of_inv`; the other host calls write only memory (R274), ST and program data, or reset. -/
theorem hostOperationsKeepInv : Obligations.HostOperationsKeepInv := by
  intro op s h
  cases op with
  | loadProgram lines =>
    exact ⟨_, rfl, { h with symbolsWf := rfl }⟩
  | assemble =>
    exact ⟨_, rfl, { h with memWf := loadPairs_wf _ h.memWf, symbolsWf := passOne_symbolsWellFormed s.source }⟩
  | tick debug => exact tick_of_inv debug h
  | state => exact ⟨s, rfl, h⟩
  | reset => exact ⟨_, rfl, inv_resetCore h.symbolsWf⟩

theorem inv_of_reachable {s : State} (h : Reachable s) : s.Inv := by
  induction h with
  | construct => exact resetStateMeetsInv
  | call op s t _ call ih =>
    obtain ⟨u, hu, inv⟩ := hostOperationsKeepInv op s ih
    rw [call] at hu
    cases hu
    exact inv

/-! ## The step as ticks -/

/-- The SC of the last micro-step of a word: for an illegal word that of decode, which halts (R102). -/
def lastScOf (w : Word) : Nat :=
  match decode w with
  | .ok i => lastSc i
  | .error _ => 1

theorem lastScOf_legal {w : Word} {i : Instr} (legal : decode w = .ok i) : lastScOf w = lastSc i := by
  simp [lastScOf, legal]

theorem lastScOf_illegal {w : Word} (illegal : decode w = .error (.illegalOpcode w)) : lastScOf w = 1 := by
  simp [lastScOf, illegal]

/-- The number of ticks that a step is: those from SC up to the last micro-step of the word, and one in any case (log 3). -/
def stepTicks (s : State) : Nat :=
  if s.halted then 1 else max 1 (lastScOf (if s.sc = 0 then s.mem.word s.pc.toNat else s.ir) + 1 - s.sc)

/-- A single tick, as the number of ticks it is. -/
theorem ticks_one (s : State) : ticks 1 s = tick false s := by
  simp only [ticks]
  cases tick false s <;> rfl

/-- The execute micro-steps of an instruction up to its end are the ticks from SC up to the last micro-step (R103, R107). -/
theorem complete_eq_ticks {i : Instr} {n : Nat} {s : State} (running : s.halted = false) (legal : decode s.ir = .ok i)
    (started : 2 ≤ s.sc) (last : s.sc ≤ lastSc i) (fuel : lastSc i < s.sc + n) :
    complete (micro i) n s = ticks (lastSc i + 1 - s.sc) s := by
  induction n generalizing s with
  | zero => omega
  | succ n ih =>
    obtain ⟨_, _, t, completed, effect⟩ | ⟨missing, -⟩ := micro_spec i s
    · have hn : lastSc i + 1 - s.sc = (lastSc i - s.sc) + 1 := by omega
      rw [hn, ticks_succ_of_next _ (tick_of_micro false running legal completed)]
      have hsc := effect.sc
      split at hsc
      · have : lastSc i - s.sc = 0 := by omega
        rw [complete_last n completed hsc, this, ticks]
      · have notHlt : i ≠ .hlt := by
          rintro rfl
          have := eq_two_of_hlt started last
          simp only [lastSc] at *
          omega
        have stillRunning : t.halted = false := by
          simpa [running, notHlt] using effect.halted
        rw [complete_more n completed (by omega), ih stillRunning (effect.ir ▸ legal) (by omega) (by omega) (by omega), hsc]
        congr 1
        omega
    · omega

/-- The decoded instruction is the ticks from SC = 1 on (R101, R102, R103). -/
theorem runDecoded_eq_ticks {s : State} (running : s.halted = false) (hs : s.sc = 1) : runDecoded s = ticks (lastScOf s.ir) s := by
  obtain illegal | ⟨i, legal⟩ := decode_cases s.ir
  · rw [lastScOf_illegal illegal, ticks_one, tick_illegal false running hs illegal]
    simp only [runDecoded, illegal]
  · obtain ⟨lower, upper⟩ := lastSc_bounds i
    have hn : lastSc i = (lastSc i - 1) + 1 := by omega
    calc runDecoded s
        = complete (micro i) 3 (decoded i s) := by simp only [runDecoded, legal, exec_eq_complete, decoded]
      _ = ticks (lastSc i - 1) (decoded i s) := complete_eq_ticks (s := decoded i s) running legal le_rfl lower (by
          simp only [decoded]
          omega)
      _ = ticks (lastScOf s.ir) s := by
        rw [lastScOf_legal legal, hn, ticks_succ_of_next _ (tick_decode false running hs legal), Nat.add_sub_cancel]

/-- The rest of an instruction is the ticks from SC on, of which the first faults where there is no micro-step (R105). -/
theorem finishInstruction_eq_ticks {s : State} (running : s.halted = false) (hs : 2 ≤ s.sc) :
    finishInstruction s = ticks (max 1 (lastScOf s.ir + 1 - s.sc)) s := by
  obtain illegal | ⟨i, legal⟩ := decode_cases s.ir
  · have hn : max 1 (1 + 1 - s.sc) = 1 := by omega
    rw [lastScOf_illegal illegal, hn, ticks_one, tick_execute_illegal false running hs illegal]
    simp only [finishInstruction, illegal]
  · rw [lastScOf_legal legal]
    simp only [finishInstruction, legal]
    by_cases last : s.sc ≤ lastSc i
    · have hn : max 1 (lastSc i + 1 - s.sc) = lastSc i + 1 - s.sc := by omega
      rw [hn, complete_eq_ticks running legal hs last (by have := (lastSc_bounds i).2; omega)]
    · have hn : max 1 (lastSc i + 1 - s.sc) = 1 := by omega
      obtain ⟨_, _, _⟩ | ⟨-, failed⟩ := micro_spec i s
      · omega
      · rw [hn, ticks_one, tick_execute false running hs legal]
        simp only [complete, failed, settle]

/-- A step at an instruction boundary fetches, and runs what it fetched (R100). -/
theorem step_fetch {s : State} (running : s.halted = false) (hs : s.sc = 0) : step s = runDecoded (fetched false s) := by
  simp [step, instructionStep, running, hs, fetch_eq, fetched]

theorem step_decode {s : State} (running : s.halted = false) (hs : s.sc = 1) : step s = runDecoded s := by
  simp [step, instructionStep, running, hs]

theorem step_execute {s : State} (running : s.halted = false) (hs : 2 ≤ s.sc) : step s = finishInstruction s := by
  obtain ⟨n, hn⟩ : ∃ n, s.sc = n + 2 := ⟨s.sc - 2, by omega⟩
  simp [step, instructionStep, running, hn]

/-- A step is its ticks, from every state (log 3). -/
theorem step_eq_ticks (s : State) : step s = ticks (stepTicks s) s := by
  cases halted : s.halted with
  | true => simp [step, instructionStep, stepTicks, halted, ticks_one]
  | false =>
    have lower : ∀ w, 1 ≤ lastScOf w := by
      intro w
      obtain illegal | ⟨i, legal⟩ := decode_cases w
      · rw [lastScOf_illegal illegal]
      · rw [lastScOf_legal legal]
        exact Nat.le_of_succ_le (lastSc_bounds i).1
    obtain hs | hs | hs := zero_or_one_or_two_le s.sc
    · have hn : stepTicks s = lastScOf (fetched false s).ir + 1 := by simp [stepTicks, halted, hs, fetched]
      rw [step_fetch halted hs, runDecoded_eq_ticks (s := fetched false s) halted rfl, hn,
        ticks_succ_of_next _ (tick_fetch false halted hs)]
    · have hn : stepTicks s = lastScOf s.ir := by simp [stepTicks, halted, hs, lower]
      rw [step_decode halted hs, runDecoded_eq_ticks halted hs, hn]
    · have hn : stepTicks s = max 1 (lastScOf s.ir + 1 - s.sc) := by
        have : s.sc ≠ 0 := by omega
        simp [stepTicks, halted, this]
      rw [step_execute halted hs, finishInstruction_eq_ticks halted hs, hn]

/-- Any number of ticks from a state that meets the invariant answers a state that meets it. -/
theorem ticks_of_inv (n : Nat) {s : State} (h : s.Inv) : ∃ t, ticks n s = .next t ∧ t.Inv := by
  induction n generalizing s with
  | zero => exact ⟨s, rfl, h⟩
  | succ n ih =>
    obtain ⟨t, ht, inv⟩ := tick_of_inv false h
    rw [ticks_succ_of_next n ht]
    exact ih inv

theorem step_of_inv {s : State} (h : s.Inv) : ∃ t, step s = .next t ∧ t.Inv := by
  rw [step_eq_ticks]
  exact ticks_of_inv _ h

/-- Settles O3: a step is ticks, and every tick keeps the invariant. -/
theorem everyStepKeepsInv : Obligations.EveryStepKeepsInv := by
  refine ⟨fun s t h ht => ?_, fun s h => ?_⟩ <;> obtain ⟨u, hu, inv⟩ := step_of_inv h
  · rw [ht] at hu
    cases hu
    exact inv
  · exact ⟨u, hu⟩

/-- Settles O5: reachable states meet the invariant, which has a tick and a step, and the zeros. -/
theorem reachableStatesNeverFault : Obligations.ReachableStatesNeverFault := by
  intro s reachable
  have inv := inv_of_reachable reachable
  refine ⟨fun debug => ?_, ?_, inv.trZero, inv.inprZero, inv.fgiZero, inv.fgoZero⟩
  · obtain ⟨t, ht, -⟩ := tick_of_inv debug inv
    exact ⟨t, ht⟩
  · obtain ⟨t, ht, -⟩ := step_of_inv inv
    exact ⟨t, ht⟩

/-! ## Statements about the step -/

/-- Settles O16: the step fetches, and runs what the fetched word decodes to. -/
theorem stepRunsDecodedInstruction : Obligations.StepRunsDecodedInstruction := by
  intro s i running hs legal
  have legal' : decode (fetched false s).ir = .ok i := legal
  rw [step_fetch running hs]
  simp only [runDecoded, legal']
  simp [fetched]

/-- Settles O8: the decode tick by `tick_illegal`; a step at a boundary is the fetch tick and that one. -/
theorem illegalWordHaltsAtDecode : Obligations.IllegalWordHaltsAtDecode := by
  refine ⟨fun debug s running hs illegal => tick_illegal debug running hs illegal, fun s running hs illegal => ?_⟩
  have two : step s = ticks 2 s := by
    rw [step_eq_ticks]
    simp [stepTicks, running, hs, lastScOf_illegal illegal]
  refine ⟨two, ?_⟩
  rw [two, ticks_succ_of_next 1 (tick_fetch false running hs), ticks_one,
    tick_illegal (s := fetched false s) false running rfl illegal]
  simp [fetched, takeError, emit, errorEntry]

/-- Ticks one after another. -/
theorem ticks_succ_last {n : Nat} {s t : State} (h : ticks n s = .next t) : ticks (n + 1) s = tick false t := by
  induction n generalizing s with
  | zero =>
    cases h
    exact ticks_one _
  | succ n ih =>
    rw [ticks] at h
    cases hu : tick false s with
    | next u =>
      rw [hu] at h
      rw [ticks_succ_of_next _ hu]
      exact ih h
    | fault x => simp [hu] at h
    | refused x => simp [hu] at h

/-- In the middle of an instruction SC counts its ticks, the machine runs and IR holds its word (R104, R106). -/
theorem ticks_within {s : State} {i : Instr} (running : s.halted = false) (hs : s.sc = 0)
    (legal : decode (s.mem.word s.pc.toNat) = .ok i) {k : Nat} (started : 0 < k) (last : k ≤ lastSc i) :
    ∃ t, ticks k s = .next t ∧ t.sc = k ∧ t.halted = false ∧ decode t.ir = .ok i := by
  induction k, started using Nat.le_induction with
  | base => exact ⟨fetched false s, (ticks_one s).trans (tick_fetch false running hs), rfl, running, legal⟩
  | succ k started ih =>
    obtain ⟨t, ht, hsc, still, legal'⟩ := ih (by omega)
    rw [ticks_succ_last ht]
    obtain h0 | h1 | h2 := zero_or_one_or_two_le t.sc
    · omega
    · exact ⟨_, tick_decode false still h1 legal', by simp only [decoded]; omega, still, legal'⟩
    · obtain ⟨_, _, u, completed, effect⟩ | ⟨missing, -⟩ := micro_spec i t
      · have notHlt : i ≠ .hlt := by
          rintro rfl
          simp only [lastSc] at last
          omega
        refine ⟨u, tick_of_micro false still legal' completed, ?_, ?_, effect.ir ▸ legal'⟩
        · have := effect.sc
          split at this <;> omega
        · simpa [still, notHlt] using effect.halted
      · omega

/-- Settles O15: `step_eq_ticks` with the number of ticks of a legal word, and `ticks_within`. -/
theorem stepIsTheTicksOfItsInstruction : Obligations.StepIsTheTicksOfItsInstruction := by
  refine ⟨fun s i running hs legal => ⟨?_, fun k started last => ?_⟩,
    fun _ _ => ⟨rfl, rfl, rfl, rfl, rfl, rfl, rfl⟩, fun i => ?_⟩
  · rw [step_eq_ticks]
    simp [stepTicks, running, hs, lastScOf_legal legal, ticksOf]
  · obtain ⟨t, ht, hsc, still, -⟩ := ticks_within running hs legal started (Nat.le_of_lt_succ last)
    exact ⟨t, ht, hsc, still⟩
  · cases i <;> simp [isMri, ticksOf, lastSc]

end Sys2Proof.Machine
end

section
/-! The instructions (spec/41_mri.md, spec/42_register_reference.md, spec/43_io.md): the whole next state of each, once, and from
these equations the results and frames of the statements. -/

namespace Sys2Proof.Machine

/-! ## The whole next state of each instruction -/

/-- The effective address (R78): direct, or one level of indirection (R79). -/
def operandAddress (m : Memory) (addr : Addr) (ind : Bool) : Addr :=
  if ind then addressField (m.word addr.toNat) else addr

theorem effectiveAddress_eq_operandAddress (m : Memory) (addr : Addr) (ind : Bool) :
    effectiveAddress m addr ind = .ok (operandAddress m addr ind) :=
  effectiveAddress_eq m addr ind

theorem eq_operandAddress {m : Memory} {addr a : Addr} {ind : Bool} (h : effectiveAddress m addr ind = .ok a) :
    a = operandAddress m addr ind := by
  rw [effectiveAddress_eq_operandAddress] at h
  cases h
  rfl

section MemoryReference

variable (ind : Bool) (addr : Addr) (s : State)

@[simp] theorem exec_and : exec (.and ind addr) s =
    .next { s with ar := operandAddress s.mem addr ind, dr := s.mem.word (operandAddress s.mem addr ind).toNat,
                   ac := s.ac &&& s.mem.word (operandAddress s.mem addr ind).toNat, sc := 0 } := by
  simp [exec_eq_complete, complete, micro, microAnd, endInstruction, decodedAddress, operandAddress]

@[simp] theorem exec_add : exec (.add ind addr) s =
    .next { s with ar := operandAddress s.mem addr ind, dr := s.mem.word (operandAddress s.mem addr ind).toNat,
                   ac := s.ac + s.mem.word (operandAddress s.mem addr ind).toNat,
                   e := sumCarry s.ac (s.mem.word (operandAddress s.mem addr ind).toNat), sc := 0 } := by
  simp [exec_eq_complete, complete, micro, microAdd, endInstruction, decodedAddress, operandAddress, sumWord_eq]

@[simp] theorem exec_lda : exec (.lda ind addr) s =
    .next { s with ar := operandAddress s.mem addr ind, dr := s.mem.word (operandAddress s.mem addr ind).toNat,
                   ac := s.mem.word (operandAddress s.mem addr ind).toNat, sc := 0 } := by
  simp [exec_eq_complete, complete, micro, microLda, endInstruction, decodedAddress, operandAddress]

@[simp] theorem exec_sta : exec (.sta ind addr) s =
    .next { s with ar := operandAddress s.mem addr ind,
                   mem := s.mem.setWord (operandAddress s.mem addr ind).toNat s.ac, sc := 0 } := by
  simp [exec_eq_complete, complete, micro, microSta, endInstruction, decodedAddress, operandAddress]

@[simp] theorem exec_bun : exec (.bun ind addr) s =
    .next { s with ar := operandAddress s.mem addr ind, pc := operandAddress s.mem addr ind, sc := 0 } := by
  simp [exec_eq_complete, complete, micro, microBun, oneStep, endInstruction, decodedAddress, operandAddress]

@[simp] theorem exec_bsa : exec (.bsa ind addr) s =
    .next { s with ar := operandAddress s.mem addr ind + 1, pc := operandAddress s.mem addr ind + 1,
                   mem := s.mem.setWord (operandAddress s.mem addr ind).toNat (s.pc.setWidth 16), sc := 0 } := by
  simp [exec_eq_complete, complete, micro, microBsa, endInstruction, decodedAddress, operandAddress]

@[simp] theorem exec_isz : exec (.isz ind addr) s =
    .next { s with ar := operandAddress s.mem addr ind, dr := s.mem.word (operandAddress s.mem addr ind).toNat + 1,
                   mem := s.mem.setWord (operandAddress s.mem addr ind).toNat
                     (s.mem.word (operandAddress s.mem addr ind).toNat + 1),
                   pc := if isZero (s.mem.word (operandAddress s.mem addr ind).toNat + 1) then s.pc + 1 else s.pc, sc := 0 } := by
  have address : decodedAddress s.mem (.isz ind addr) = operandAddress s.mem addr ind := rfl
  simp [exec_eq_complete, address, complete, micro, microIsz, skipIf, endInstruction]

end MemoryReference

section RegisterReferenceAndIo

variable (s : State)

@[simp] theorem exec_cla : exec .cla s = .next { s with ar := 0x800#12, ac := 0, sc := 0 } :=
  rfl

@[simp] theorem exec_cle : exec .cle s = .next { s with ar := 0x400#12, e := 0, sc := 0 } :=
  rfl

@[simp] theorem exec_cma : exec .cma s = .next { s with ar := 0x200#12, ac := ~~~s.ac, sc := 0 } :=
  rfl

@[simp] theorem exec_cme : exec .cme s = .next { s with ar := 0x100#12, e := ~~~s.e, sc := 0 } :=
  rfl

@[simp] theorem exec_cir : exec .cir s =
    .next { s with ar := 0x080#12, ac := rotateRight s.e s.ac, e := lowBit s.ac, sc := 0 } :=
  rfl

@[simp] theorem exec_cil : exec .cil s =
    .next { s with ar := 0x040#12, ac := rotateLeft s.ac s.e, e := highBit s.ac, sc := 0 } :=
  rfl

@[simp] theorem exec_inc : exec .inc s = .next { s with ar := 0x020#12, ac := s.ac + 1, sc := 0 } :=
  rfl

@[simp] theorem exec_spa : exec .spa s =
    .next { s with ar := 0x010#12, pc := if isPositive s.ac then s.pc + 1 else s.pc, sc := 0 } :=
  rfl

@[simp] theorem exec_sna : exec .sna s =
    .next { s with ar := 0x008#12, pc := if isNegative s.ac then s.pc + 1 else s.pc, sc := 0 } :=
  rfl

@[simp] theorem exec_sza : exec .sza s =
    .next { s with ar := 0x004#12, pc := if isZero s.ac then s.pc + 1 else s.pc, sc := 0 } :=
  rfl

@[simp] theorem exec_sze : exec .sze s =
    .next { s with ar := 0x002#12, pc := if flagClear s.e then s.pc + 1 else s.pc, sc := 0 } :=
  rfl

@[simp] theorem exec_hlt : exec .hlt s = .next { s with ar := 0x001#12, halted := true, sc := 0 } :=
  rfl

@[simp] theorem exec_inp : exec .inp s =
    .next { s with ar := 0x800#12, ac := mergeLow s.ac s.inpr, fgi := 0, sc := 0 } :=
  rfl

@[simp] theorem exec_out : exec .out s =
    .next { s with ar := 0x400#12, outr := lowByte s.ac, fgo := 0, sc := 0 } :=
  rfl

@[simp] theorem exec_ski : exec .ski s =
    .next { s with ar := 0x200#12, pc := if flagSet s.fgi then s.pc + 1 else s.pc, sc := 0 } :=
  rfl

@[simp] theorem exec_sko : exec .sko s =
    .next { s with ar := 0x100#12, pc := if flagSet s.fgo then s.pc + 1 else s.pc, sc := 0 } :=
  rfl

@[simp] theorem exec_ion : exec .ion s = .next { s with ar := 0x080#12, ien := 1, sc := 0 } :=
  rfl

@[simp] theorem exec_iof : exec .iof s = .next { s with ar := 0x040#12, ien := 0, sc := 0 } :=
  rfl

end RegisterReferenceAndIo

/-! ## Memory-reference instructions -/

/-- Settles O18: the address field, or the low 12 bits of the word there. -/
theorem effectiveAddressIsOneLevel : Obligations.EffectiveAddressIsOneLevel := by
  intro m addr
  exact ⟨effectiveAddress_eq m addr false, _, effectiveAddress_eq m addr true, addressField_toNat _⟩

/-- The word stored by ISZ is 0 exactly when the word read was 0xFFFF (R137). -/
theorem isZero_succ (w : Word) : isZero (w + 1) = decide (w.toNat = 0xFFFF) := by
  have := w.isLt
  simp only [isZero, beq_eq_decide, decide_eq_decide, ← BitVec.toNat_inj, BitVec.toNat_add]
  simp
  omega

/-- Settles O19: the equations of AND, ADD and LDA, with the carry of `sumCarry_eq`. -/
theorem andAddLdaResults : Obligations.AndAddLdaResults := by
  intro ind addr s
  refine ⟨_, effectiveAddress_eq_operandAddress s.mem addr ind, exec_and ind addr s, ?_, exec_lda ind addr s⟩
  rw [exec_add, sumCarry_eq]

/-- Settles O20: the equations of STA, BUN and BSA, and the read after a write. -/
theorem staBunBsaResults : Obligations.StaBunBsaResults := by
  intro ind addr s
  refine ⟨_, effectiveAddress_eq_operandAddress s.mem addr ind, exec_sta ind addr s, exec_bun ind addr s, ?_,
    fun canonical v => Memory.word_setWord_same v canonical⟩
  rw [exec_bsa, BitVec.ofNat_toNat]

/-- Settles O21: the equation of ISZ, by whether the word read is 0xFFFF. -/
theorem iszResult : Obligations.IszResult := by
  intro ind addr s
  refine ⟨_, effectiveAddress_eq_operandAddress s.mem addr ind, fun top => ?_, fun notTop => ?_⟩
  · have wraps : s.mem.word (operandAddress s.mem addr ind).toNat + 1 = 0 := by
      simpa [isZero] using (isZero_succ _).trans (decide_eq_true top)
    rw [exec_isz, isZero_succ, wraps]
    simp [top]
  · rw [exec_isz, isZero_succ]
    simp [notTop]

/-- Settles O17: each clause is the micro-step at its SC. -/
theorem memoryReferenceTickByTick : Obligations.MemoryReferenceTickByTick := by
  intro debug ind addr s running
  refine ⟨?_, ?_, ?_, ?_, ?_, ?_, ?_, ?_, ?_, ?_, ?_⟩
  · rintro (legal | legal | legal | legal) hs <;>
      exact tick_of_micro debug running legal (by simp [micro, microAnd, microAdd, microLda, microIsz, hs])
  · intro legal hs
    exact tick_of_micro debug running legal (by simp [micro, microAnd, hs, endInstruction])
  · intro legal hs
    exact tick_of_micro debug running legal (by simp [micro, microAdd, hs, endInstruction, sumWord_eq, sumCarry_eq])
  · intro legal hs
    exact tick_of_micro debug running legal (by simp [micro, microLda, hs, endInstruction])
  · intro legal hs
    exact tick_of_micro debug running legal (by simp [micro, microSta, hs, endInstruction])
  · intro legal hs
    exact tick_of_micro debug running legal (by simp [micro, microBun, oneStep, hs, endInstruction])
  · intro legal hs
    exact tick_of_micro debug running legal (by simp [micro, microBsa, hs])
  · intro legal hs
    exact tick_of_micro debug running legal (by simp [micro, microBsa, hs, endInstruction])
  · intro legal hs
    exact tick_of_micro debug running legal (by simp [micro, microIsz, hs])
  · intro legal hs zero
    exact tick_of_micro debug running legal (by simp [micro, microIsz, hs, endInstruction, skipIf, isZero, zero])
  · intro legal hs (nonzero : ¬s.dr = 0#16)
    exact tick_of_micro debug running legal (by simp [micro, microIsz, hs, endInstruction, skipIf, isZero, nonzero])

/-- Settles O22: the equations of AND, ADD, LDA and BUN. -/
theorem nonStoringMemoryReferenceFrame : Obligations.NonStoringMemoryReferenceFrame := by
  rintro ind addr i s t (rfl | rfl | rfl | rfl) h
  all_goals
    simp only [exec_and, exec_add, exec_lda, exec_bun, Host.Outcome.next.injEq] at h
    subst h
    simp [Claims.sameProgramData]

/-- Settles O23: the equations of STA, BSA and ISZ, and the reads beside a write. -/
theorem storingFrame : Obligations.StoringFrame := by
  rintro ind addr a i s t (rfl | rfl | rfl) ha h
  all_goals
    obtain rfl := eq_operandAddress ha
    simp only [exec_sta, exec_bsa, exec_isz, Host.Outcome.next.injEq] at h
    subst h
    simp +contextual [Claims.sameProgramData, Memory.word_setWord_ne]

/-- The address field of a stored PC is that PC (R136). -/
theorem addressField_setWidth (a : Addr) : addressField (a.setWidth 16) = a := by
  have := a.isLt
  apply BitVec.eq_of_toNat_eq
  rw [addressField_toNat, BitVec.toNat_setWidth]
  omega

/-- Settles O24: the indirect BUN reads the return address that the BSA stored. -/
theorem subroutineCallReturns : Obligations.SubroutineCallReturns := by
  intro addr s t u v canonical call sameMemory back
  rw [exec_bsa] at call
  rw [exec_bun] at back
  cases call
  cases back
  simp [operandAddress, sameMemory, Memory.word_setWord_same _ canonical, addressField_setWidth]

/-- Settles O25: the equations of STA, BSA and ISZ, then a fetch that reads the word written. -/
theorem storedWordIsFetched : Obligations.StoredWordIsFetched := by
  intro ind addr a s t canonical running ha
  obtain rfl := eq_operandAddress ha
  refine ⟨fun h => ?_, fun h => ?_, fun h => ?_⟩
  · rw [exec_sta] at h
    cases h
    exact ⟨rfl, _, tick_fetch false running rfl, Memory.word_setWord_same s.ac canonical⟩
  · rw [exec_bsa] at h
    cases h
    refine ⟨rfl, _, tick_fetch false running rfl, ?_⟩
    simp only [fetched, Memory.word_setWord_same _ canonical]
    exact BitVec.toNat_setWidth_of_le (by decide)
  · rw [exec_isz] at h
    cases h
    exact ⟨rfl, _, tick_fetch false running rfl, Memory.word_setWord_same _ canonical⟩

/-! ## Register-reference and input/output instructions -/

/-- CMA in arithmetic (R163). -/
theorem not_eq_ofNat (a : Word) : ~~~a = BitVec.ofNat 16 (65535 - a.toNat) := by
  have := a.isLt
  apply BitVec.eq_of_toNat_eq
  simp only [BitVec.toNat_not, BitVec.toNat_ofNat]
  omega

/-- CME in arithmetic (R164). -/
theorem not_bit_eq_ofNat (e : Bit) : ~~~e = BitVec.ofNat 1 (1 - e.toNat) := by
  have := e.isLt
  apply BitVec.eq_of_toNat_eq
  simp only [BitVec.toNat_not, BitVec.toNat_ofNat]
  omega

/-- A bit vector is the number that it holds, modulo its size. -/
theorem eq_ofNat_of_toNat_eq {w : Nat} {a : BitVec w} {n : Nat} (h : a.toNat = n % 2 ^ w) : a = BitVec.ofNat w n :=
  BitVec.eq_of_toNat_eq (by rw [h, BitVec.toNat_ofNat])

/-- Settles O26: the equations, with each computation in arithmetic. -/
theorem accumulatorAndCarryResults : Obligations.AccumulatorAndCarryResults := by
  intro s
  have hac := s.ac.isLt
  have he := s.e.isLt
  refine ⟨exec_cla s, exec_cle s, ?_, ?_, ?_, ?_, ?_⟩
  · rw [exec_cma, not_eq_ofNat]
  · rw [exec_cme, not_bit_eq_ofNat]
  · have right : rotateRight s.e s.ac = BitVec.ofNat 16 (s.e.toNat * 32768 + s.ac.toNat / 2) :=
      eq_ofNat_of_toNat_eq (by rw [rotateRight_toNat]; omega)
    have low : lowBit s.ac = BitVec.ofNat 1 (s.ac.toNat % 2) := eq_ofNat_of_toNat_eq (by rw [lowBit_toNat]; omega)
    rw [exec_cir, right, low]
  · have left : rotateLeft s.ac s.e = BitVec.ofNat 16 (s.ac.toNat * 2 + s.e.toNat) :=
      eq_ofNat_of_toNat_eq (by rw [rotateLeft_toNat]; omega)
    have high : highBit s.ac = BitVec.ofNat 1 (s.ac.toNat / 32768) := eq_ofNat_of_toNat_eq (by rw [highBit_toNat]; omega)
    rw [exec_cil, left, high]
  · have succ : s.ac + 1 = BitVec.ofNat 16 (s.ac.toNat + 1) := eq_ofNat_of_toNat_eq (BitVec.toNat_add s.ac 1)
    rw [exec_inc, succ]

/-- Settles O27: the equations, with each condition as the rule writes it. -/
theorem skipResults : Obligations.SkipResults := by
  intro s
  simp [isPositive, isNegative, isZero, flagClear, flagSet, signed16_eq]

/-- Settles O28: the equations, with the bytes of INP and OUT in arithmetic. -/
theorem haltAndIoResults : Obligations.HaltAndIoResults := by
  intro s
  have hac := s.ac.isLt
  have hin := s.inpr.isLt
  refine ⟨exec_hlt s, ?_, ?_, exec_ion s, exec_iof s⟩
  · have merged : mergeLow s.ac s.inpr = BitVec.ofNat 16 (s.ac.toNat / 256 * 256 + s.inpr.toNat) :=
      eq_ofNat_of_toNat_eq (by rw [mergeLow_toNat]; omega)
    rw [exec_inp, merged]
  · have byte : lowByte s.ac = BitVec.ofNat 8 (s.ac.toNat % 256) := eq_ofNat_of_toNat_eq (by rw [lowByte_toNat]; omega)
    rw [exec_out, byte]

/-- Settles O29: the equation of each register-reference and input/output instruction. -/
theorem registerAndIoFrame : Obligations.RegisterAndIoFrame := by
  intro i s t notMri h
  cases i with
  | and _ _ | add _ _ | lda _ _ | sta _ _ | bun _ _ | bsa _ _ | isz _ _ => cases notMri
  | _ =>
    simp at h
    subst h
    simp [Claims.sameProgramData]

/-! ## Corner cases -/

/-- CIL undoes CIR (R166). -/
theorem rotateLeft_rotateRight (e : Bit) (a : Word) : rotateLeft (rotateRight e a) (lowBit a) = a := by
  have := a.isLt
  apply BitVec.eq_of_toNat_eq
  rw [rotateLeft_toNat, rotateRight_toNat, lowBit_toNat]
  omega

theorem highBit_rotateRight (e : Bit) (a : Word) : highBit (rotateRight e a) = e := by
  have := a.isLt
  have := e.isLt
  apply BitVec.eq_of_toNat_eq
  rw [highBit_toNat, rotateRight_toNat]
  omega

/-- E and AC as the ring of 17 bits that CIR and CIL rotate (R165, R166). -/
def carryRing (s : State) : BitVec 17 := s.e ++ s.ac

theorem carryRing_getLsbD (s : State) (i : Nat) :
    (carryRing s).getLsbD i = if i < 16 then s.ac.getLsbD i else s.e.getLsbD (i - 16) := by
  simp only [carryRing, BitVec.getLsbD_append]

theorem carryRing_inj {s t : State} (h : carryRing s = carryRing t) : s.ac = t.ac ∧ s.e = t.e := by
  have bit : ∀ i, (carryRing s).getLsbD i = (carryRing t).getLsbD i := fun i => by rw [h]
  simp only [carryRing_getLsbD] at bit
  constructor
  · refine BitVec.eq_of_getLsbD_eq fun i hi => ?_
    simpa [hi] using bit i
  · refine BitVec.eq_of_getLsbD_eq fun i _ => ?_
    simpa using bit (i + 16)

theorem rotateRight_getLsbD (e : Bit) (a : Word) (i : Nat) :
    (rotateRight e a).getLsbD i = if i < 15 then a.getLsbD (1 + i) else e.getLsbD (i - 15) := by
  simp only [rotateRight, BitVec.getLsbD_append, BitVec.getLsbD_extractLsb']
  split <;> simp [*]

/-- CIR moves each bit of the ring down by one place, the lowest to the top (R165). -/
theorem carryRing_cir {s t : State} (h : exec .cir s = .next t) {i : Nat} (hi : i < 17) :
    (carryRing t).getLsbD i = (carryRing s).getLsbD ((i + 1) % 17) := by
  rw [exec_cir] at h
  cases h
  simp only [carryRing_getLsbD, rotateRight_getLsbD]
  obtain low | rfl | rfl : i < 15 ∨ i = 15 ∨ i = 16 := by omega
  · have hm : (i + 1) % 17 = 1 + i := by omega
    simp [hm, low, show i < 16 by omega, show 1 + i < 16 by omega]
  · simp
  · simp [lowBit]

theorem execTimes_cir (n : Nat) (s : State) :
    ∃ t, Claims.execTimes .cir n s = .next t ∧
      ∀ i < 17, (carryRing t).getLsbD i = (carryRing s).getLsbD ((i + n) % 17) := by
  induction n generalizing s with
  | zero => exact ⟨s, rfl, fun i hi => by rw [Nat.add_zero, Nat.mod_eq_of_lt hi]⟩
  | succ n ih =>
    obtain ⟨t, run, bits⟩ := ih _
    refine ⟨t, by simp only [Claims.execTimes, exec_cir]; exact run, fun i hi => ?_⟩
    rw [bits i hi, carryRing_cir (exec_cir s) (Nat.mod_lt _ (by decide))]
    congr 1
    omega

/-- Settles O30: the rotates as a ring of 17 bits, the negation of two's complement, and the two exclusive conditions. -/
theorem rotateNegateAndSignCorners : Obligations.RotateNegateAndSignCorners := by
  refine ⟨fun s t u right left => ?_, fun s => ?_, fun s t u complement increment => ?_, fun s t u spa sna => ?_⟩
  · rw [exec_cir] at right
    cases right
    rw [exec_cil] at left
    cases left
    exact ⟨rotateLeft_rotateRight s.e s.ac, highBit_rotateRight s.e s.ac⟩
  · obtain ⟨t, run, bits⟩ := execTimes_cir 17 s
    refine ⟨t, run, carryRing_inj (BitVec.eq_of_getLsbD_eq fun i hi => ?_)⟩
    rw [bits i hi, Nat.add_mod_right, Nat.mod_eq_of_lt hi]
  · rw [exec_cma] at complement
    cases complement
    rw [exec_inc] at increment
    cases increment
    exact ⟨(BitVec.neg_eq_not_add s.ac).symm, rfl⟩
  · rw [exec_spa] at spa
    rw [exec_sna, isNegative_eq_not_isPositive] at sna
    cases spa
    cases sna
    cases isPositive s.ac
    · exact .inr ⟨rfl, rfl⟩
    · exact .inl ⟨rfl, rfl⟩

/-- With nothing in INPR, INP clears the low byte of AC (R31, R191). -/
theorem mergeLow_zero (a : Word) : mergeLow a 0 = a &&& 0xFF00#16 := by
  apply BitVec.eq_of_getLsbD_eq
  intro i hi
  simp only [mergeLow, BitVec.getLsbD_append, BitVec.getLsbD_and]
  interval_cases i <;> simp

/-- Settles O31: in a reachable state FGI, FGO and INPR are 0. -/
theorem ioPollingNeverSkips : Obligations.IoPollingNeverSkips := by
  intro s t u v reachable ski sko inp
  have inv := inv_of_reachable reachable
  rw [exec_ski, inv.fgiZero] at ski
  rw [exec_sko, inv.fgoZero] at sko
  rw [exec_inp, inv.inprZero, mergeLow_zero] at inp
  cases ski
  cases sko
  cases inp
  exact ⟨rfl, rfl, rfl⟩

end Sys2Proof.Machine
end

section
/-! Storage that execution does not read (R27, R33, R36): IEN and TR, and the program data with the log. Both statements are about
one function that forgets such storage; it commutes with every micro-step, so with a tick, and with a step by `step_eq_ticks`. -/

namespace Sys2Proof.Machine

/-! ## Forgetting storage -/

/-- The value `x`, or `d` in its place when it is hidden. -/
def hideAs {α : Type} (d : α) (hidden : Bool) (x : α) : α := if hidden then d else x

@[simp] theorem hideAs_hideAs {α : Type} (d : α) (hidden : Bool) (x : α) :
    hideAs d hidden (hideAs d hidden x) = hideAs d hidden x := by
  cases hidden <;> rfl

/-- Appending to a list, as far as it is not hidden, does not read what is hidden of it. -/
@[simp] theorem hideAs_append {α : Type} (hidden : Bool) (l l' : List α) :
    hideAs [] hidden (hideAs [] hidden l ++ l') = hideAs [] hidden (l ++ l') := by
  cases hidden <;> rfl

/-- The state without IEN and TR (`io`), and without SourceProgram, ST, AP and the log (`data`). -/
def forgetting (io data : Bool) (s : State) : State :=
  { s with
    ien := hideAs 0 io s.ien
    tr := hideAs 0 io s.tr
    source := hideAs [] data s.source
    symbols := hideAs [] data s.symbols
    program := hideAs [] data s.program
    log := hideAs [] data s.log }

theorem forgetIenTr_eq : Claims.forgetIenTr = forgetting true false := rfl

theorem forgetProgramData_eq : Claims.forgetProgramData = forgetting false true := rfl

/-- An answer with its next state changed by `f`. -/
def mapNext (f : State → State) : Result → Result
  | .next t => .next (f t)
  | .fault x => .fault x
  | .refused x => .refused x

theorem sameUpTo_iff_mapNext_eq {f : State → State} {r r' : Result} : Claims.sameUpTo f r r' ↔ mapNext f r = mapNext f r' := by
  cases r <;> cases r' <;> simp [mapNext, Claims.sameUpTo]

/-! ## Micro-steps, ticks and steps -/

section

variable (io data : Bool)

theorem forgetting_sc (s : State) : (forgetting io data s).sc = s.sc := rfl
theorem forgetting_halted (s : State) : (forgetting io data s).halted = s.halted := rfl

/-- An execute micro-step does not read what is forgotten. -/
theorem micro_forgetting (i : Instr) (s : State) :
    (micro i (forgetting io data s)).map (forgetting io data) = (micro i s).map (forgetting io data) := by
  have hs : s.sc = 0 ∨ s.sc = 1 ∨ s.sc = 2 ∨ s.sc = 3 ∨ s.sc = 4 ∨ ∃ n, s.sc = n + 5 := by
    rcases s.sc with _ | _ | _ | _ | _ | n <;> simp
  rcases hs with hs | hs | hs | hs | hs | ⟨n, hs⟩ <;> cases i <;>
    simp [forgetting, micro, microAnd, microAdd, microLda, microSta, microBun, microBsa, microIsz, microCla, microCle, microCma,
      microCme, microCir, microCil, microInc, microSpa, microSna, microSza, microSze, microHlt, microInp, microOut, microSki,
      microSko, microIon, microIof, oneStep, hs, Except.map, endInstruction, skipIf]

theorem emit_forgetting (x : Entry) (s : State) :
    forgetting io data (emit x (forgetting io data s)) = forgetting io data (emit x s) := by
  simp [forgetting, emit]

theorem takeError_forgetting (x : RuntimeError) (s : State) :
    forgetting io data (takeError x (forgetting io data s)) = forgetting io data (takeError x s) := by
  simp [forgetting, takeError, emit]

theorem fetched_forgetting (debug : Bool) (s : State) :
    forgetting io data (fetched debug (forgetting io data s)) = forgetting io data (fetched debug s) := by
  simp [forgetting, fetched]

theorem decoded_forgetting (i : Instr) (s : State) :
    forgetting io data (decoded i (forgetting io data s)) = forgetting io data (decoded i s) := by
  simp [forgetting, decoded]

/-- An answer of `settle` depends on the states before and after it only up to what is forgotten. -/
theorem settle_forgetting {s u : State} {m m' : Micro} (hs : forgetting io data s = forgetting io data u)
    (hm : m.map (forgetting io data) = m'.map (forgetting io data)) :
    mapNext (forgetting io data) (settle s m) = mapNext (forgetting io data) (settle u m') := by
  rcases m with (x | _) | t <;> rcases m' with (x' | _) | t' <;> simp [Except.map] at hm
  · subst hm
    simp only [settle, takeStop, mapNext]
    rw [← takeError_forgetting io data x s, hs, takeError_forgetting]
  · rfl
  · simp [settle, mapNext, hm]

/-- A tick does not read what is forgotten. -/
theorem tick_forgetting (debug : Bool) (s : State) :
    mapNext (forgetting io data) (tick debug (forgetting io data s)) = mapNext (forgetting io data) (tick debug s) := by
  have idem : forgetting io data (forgetting io data s) = forgetting io data s := by simp [forgetting]
  have hh := forgetting_halted io data s
  have hsc := forgetting_sc io data s
  cases halted : s.halted with
  | true =>
    rw [tick_halted debug halted, tick_halted debug (hh.trans halted)]
    exact congrArg Host.Outcome.next (emit_forgetting io data haltedEntry s)
  | false =>
    obtain hs | hs | hs := zero_or_one_or_two_le s.sc
    · rw [tick_fetch debug halted hs, tick_fetch debug (hh.trans halted) (hsc.trans hs)]
      exact congrArg Host.Outcome.next (fetched_forgetting io data debug s)
    · obtain illegal | ⟨i, legal⟩ := decode_cases s.ir
      · rw [tick_illegal debug halted hs illegal, tick_illegal debug (hh.trans halted) (hsc.trans hs) illegal]
        exact congrArg Host.Outcome.next (takeError_forgetting io data _ s)
      · rw [tick_decode debug halted hs legal, tick_decode debug (hh.trans halted) (hsc.trans hs) legal]
        exact congrArg Host.Outcome.next (decoded_forgetting io data i s)
    · obtain illegal | ⟨i, legal⟩ := decode_cases s.ir
      · rw [tick_execute_illegal debug halted hs illegal,
          tick_execute_illegal debug (hh.trans halted) (hs.trans_eq hsc.symm) illegal]
      · rw [tick_execute debug halted hs legal, tick_execute debug (hh.trans halted) (hs.trans_eq hsc.symm) legal]
        exact settle_forgetting io data idem (micro_forgetting io data i s)

end

section

variable {io data : Bool} {s u : State} (same : forgetting io data s = forgetting io data u)
include same

theorem tick_of_forgetting_eq (debug : Bool) :
    mapNext (forgetting io data) (tick debug s) = mapNext (forgetting io data) (tick debug u) := by
  rw [← tick_forgetting, same, tick_forgetting]

theorem ticks_of_forgetting_eq (n : Nat) :
    mapNext (forgetting io data) (ticks n s) = mapNext (forgetting io data) (ticks n u) := by
  induction n generalizing s u with
  | zero => exact congrArg Host.Outcome.next same
  | succ n ih =>
    have once := tick_of_forgetting_eq same false
    simp only [ticks]
    cases hs : tick false s <;> cases hu : tick false u <;> simp [hs, hu, mapNext] at once ⊢
    · exact ih once
    · exact once

theorem stepTicks_of_forgetting_eq : stepTicks s = stepTicks u :=
  calc stepTicks s = stepTicks (forgetting io data s) := rfl
    _ = stepTicks (forgetting io data u) := by rw [same]
    _ = stepTicks u := rfl

theorem step_of_forgetting_eq : mapNext (forgetting io data) (step s) = mapNext (forgetting io data) (step u) := by
  rw [step_eq_ticks, step_eq_ticks, stepTicks_of_forgetting_eq same]
  exact ticks_of_forgetting_eq same _

end

/-! ## The statements -/

/-- IEN's writers are ION and IOF (R33), and TR has none (R27). -/
theorem exec_ien_tr {i : Instr} {s t : State} (h : exec i s = .next t) :
    (i = .ion → t.ien = 1) ∧ (i = .iof → t.ien = 0) ∧ (i ≠ .ion → i ≠ .iof → t.ien = s.ien) ∧ t.tr = s.tr := by
  cases i with
  | _ =>
    simp at h
    subst h
    simp

/-- Settles O36: the writers by the equations of the instructions, the rest by forgetting IEN and TR. -/
theorem ienAndTrHaveNoEffect : Obligations.IenAndTrHaveNoEffect := by
  refine ⟨fun i s t => exec_ien_tr, fun s u same => ?_⟩
  simp only [sameUpTo_iff_mapNext_eq, forgetIenTr_eq] at same ⊢
  exact ⟨tick_of_forgetting_eq same, step_of_forgetting_eq same⟩

/-- Settles O37: by forgetting SourceProgram, ST, AP and the log. -/
theorem engineIgnoresProgramData : Obligations.EngineIgnoresProgramData := by
  intro s u same
  simp only [sameUpTo_iff_mapNext_eq, forgetProgramData_eq] at same ⊢
  exact ⟨tick_of_forgetting_eq same, step_of_forgetting_eq same⟩

end Sys2Proof.Machine
end

section
/-! Canonical memories (R35, log 1) and the program load (R274), with the host's calls on program data (R272, R273, R279). -/

namespace Sys2Proof.Machine

/-! ## Canonical memories -/

@[simp] theorem Memory.word_cons_same (k : Nat) (v : Word) (m : Memory) : Memory.word ((k, v) :: m) k = v := by
  simp [Memory.word]

theorem Memory.word_cons_ne {k a : Nat} (h : k ≠ a) (v : Word) (m : Memory) : Memory.word ((k, v) :: m) a = m.word a := by
  simp [Memory.word, h]

/-- A canonical memory that begins with a cell at `k` differs from every one whose cells are all above `k`. -/
theorem Memory.exists_word_ne {lo k : Nat} {v : Word} {m m' : Memory} (h : Memory.wfFrom lo ((k, v) :: m) = true)
    (h' : Memory.wfFrom (k + 1) m' = true) : ∃ a < Config.memWords, Memory.word ((k, v) :: m) a ≠ m'.word a := by
  obtain ⟨-, inRange, listed, -⟩ := Memory.wfFrom_cons.mp h
  refine ⟨k, inRange, ?_⟩
  rwa [Memory.word_cons_same, Memory.word_below h' (Nat.lt_succ_self k)]

/-- Canonical memories that read the same are the same, cell by cell. -/
theorem Memory.eq_of_word_eq {lo lo' : Nat} {m m' : Memory} (h : Memory.wfFrom lo m = true) (h' : Memory.wfFrom lo' m' = true)
    (same : ∀ a < Config.memWords, m.word a = m'.word a) : m = m' := by
  induction m generalizing lo lo' m' with
  | nil =>
    cases m' with
    | nil => rfl
    | cons c' m' =>
      obtain ⟨a, ha, differs⟩ := Memory.exists_word_ne h' (m' := []) rfl
      exact absurd (same a ha).symm differs
  | cons c m ih =>
    obtain ⟨k, v⟩ := c
    cases m' with
    | nil =>
      obtain ⟨a, ha, differs⟩ := Memory.exists_word_ne h (m' := []) rfl
      exact absurd (same a ha) differs
    | cons c' m' =>
      obtain ⟨k', v'⟩ := c'
      obtain ⟨-, inRange, listed, rest⟩ := Memory.wfFrom_cons.mp h
      obtain ⟨-, inRange', listed', rest'⟩ := Memory.wfFrom_cons.mp h'
      obtain lt | rfl | gt := Nat.lt_trichotomy k k'
      · obtain ⟨a, ha, differs⟩ := Memory.exists_word_ne h (Memory.wfFrom_cons.mpr ⟨lt, inRange', listed', rest'⟩)
        exact absurd (same a ha) differs
      · have sameWord : v = v' := by simpa using same k inRange
        have sameRest : m = m' := by
          refine ih rest rest' fun a ha => ?_
          by_cases hk : k = a
          · subst hk
            rw [Memory.word_below rest (Nat.lt_succ_self k), Memory.word_below rest' (Nat.lt_succ_self k)]
          · rw [← Memory.word_cons_ne hk v m, same a ha, Memory.word_cons_ne hk]
        rw [sameWord, sameRest]
      · obtain ⟨a, ha, differs⟩ := Memory.exists_word_ne h' (Memory.wfFrom_cons.mpr ⟨gt, inRange, listed, rest⟩)
        exact absurd (same a ha).symm differs

/-- Settles O39: by induction on the cells of one memory. -/
theorem canonicalMemoriesAreEqual : Obligations.CanonicalMemoriesAreEqual :=
  fun _ _ => Memory.eq_of_word_eq

/-! ## The program load -/

/-- The program load leaves every address that it does not list (R274). -/
theorem loadPairs_word_of_notMem {ps : List (Addr × Word)} {m : Memory} {a : Nat} (h : ∀ p ∈ ps, p.1.toNat ≠ a) :
    (loadPairs ps m).word a = m.word a := by
  induction ps generalizing m with
  | nil => rfl
  | cons p ps ih =>
    obtain ⟨b, w⟩ := p
    have differs : b.toNat ≠ a := h (b, w) List.mem_cons_self
    rw [loadPairs_cons, ih fun p hp => h p (List.mem_cons_of_mem _ hp), Memory.word_setWord_ne m w differs.symm]

/-- An address that the program load lists holds the word of its last pair (R274, R233). -/
theorem loadPairs_word_of_last {earlier later : List (Addr × Word)} {m : Memory} {a : Addr} (w : Word) (canonical : m.wf = true)
    (last : ∀ p ∈ later, p.1 ≠ a) : (loadPairs (earlier ++ (a, w) :: later) m).word a.toNat = w := by
  rw [loadPairs_append, loadPairs_cons, loadPairs_word_of_notMem fun p hp e => last p hp (BitVec.eq_of_toNat_eq e),
    Memory.word_setWord_same w (loadPairs_wf earlier canonical)]

/-- Settles O58: memory after `assemble` is the program load of AP. -/
theorem assembleLoadsProgram : Obligations.AssembleLoadsProgram := by
  intro s t canonical h
  cases h
  refine ⟨fun a unlisted => loadPairs_word_of_notMem unlisted, fun earlier a w later shape last => ?_⟩
  rw [assemble_mem, ← assemble_program, shape]
  exact loadPairs_word_of_last w canonical last

/-! ## Program data -/

/-- Settles O57: the fields that each call's update names. -/
theorem hostOperationsOnProgramData : Obligations.HostOperationsOnProgramData := by
  intro lines s
  refine ⟨⟨loadProgram lines s, rfl, loadProgram_sameRegisters lines s, ?_⟩, ⟨assemble s, rfl, assemble_sameRegisters s, ?_⟩,
    ⟨resetCore s, hostCall_reset s, ?_⟩, rfl, rfl, rfl⟩ <;> simp

end Sys2Proof.Machine
end

section
/-! Pass one (R212 to R224), line by line: what one line does, said once; then what removing comments, blank lines and the lines
after END changes, and the statements about errors and duplicate labels. -/

namespace Sys2Proof.Machine

/-! ## One line of pass one -/

/-- END is the line that ends the scan (R220). -/
def endsScan : Line → Bool
  | .stmt st => st.mnemonic = "END".toList
  | .blank | .bad => false

/-- What one line does to the data of pass one. -/
def passOneLine (line : Nat) (l : Line) (p : PassOne) : PassOne :=
  match l with
  | .blank => p
  | .bad => failLine .syntaxError line p
  | .stmt st =>
    if st.mnemonic = "END".toList then passOneEnd line st p
    else if st.mnemonic = "ORG".toList then passOneOrg line st p
    else passOneWord line st p

/-- Pass one is its lines in order, up to and including the first END (R218, R220). -/
theorem passOneFrom_cons (line : Nat) (p : PassOne) (l : Text) (ls : List Text) :
    passOneFrom line p (l :: ls) =
      if endsScan (parseLine l) then passOneLine line (parseLine l) p
      else passOneFrom (line + 1) (passOneLine line (parseLine l) p) ls := by
  rw [passOneFrom]
  cases parseLine l with
  | blank => rfl
  | bad => rfl
  | stmt st =>
    by_cases isEnd : st.mnemonic = "END".toList
    · simp only [endsScan, passOneLine, isEnd, decide_true, if_true]
    · simp only [endsScan, passOneLine, isEnd, decide_false, if_false, Bool.false_eq_true]
      exact (apply_ite (fun q => passOneFrom (line + 1) q ls) _ _ _).symm

theorem passOneFrom_end {line : Nat} {p : PassOne} {l : Text} {ls : List Text} {st : Statement} (parsed : parseLine l = .stmt st)
    (isEnd : st.mnemonic = "END".toList) : passOneFrom line p (l :: ls) = passOneEnd line st p := by
  simp only [passOneFrom, parsed, isEnd, if_true]

theorem passOneFrom_org {line : Nat} {p : PassOne} {l : Text} {ls : List Text} {st : Statement} (parsed : parseLine l = .stmt st)
    (isOrg : st.mnemonic = "ORG".toList) :
    passOneFrom line p (l :: ls) = passOneFrom (line + 1) (passOneOrg line st p) ls := by
  have notEnd : "ORG".toList ≠ "END".toList := by decide
  simp only [passOneFrom, parsed, isOrg, notEnd, if_false, if_true]

theorem passOneFrom_word {line : Nat} {p : PassOne} {l : Text} {ls : List Text} {st : Statement} (parsed : parseLine l = .stmt st)
    (notEnd : st.mnemonic ≠ "END".toList) (notOrg : st.mnemonic ≠ "ORG".toList) :
    passOneFrom line p (l :: ls) = passOneFrom (line + 1) (passOneWord line st p) ls := by
  simp only [passOneFrom, parsed, notEnd, notOrg, if_false]

/-- The four ways in which a word-producing line goes: beyond the address space (R224), without a label, with a new label, or with
a bound one (R222, R223). -/
inductive WordCase (line : Nat) (st : Statement) (p : PassOne) : PassOne → Prop where
  | beyond : WordCase line st p { p with lc := p.lc + 1, errors := p.errors ++ [(.addressOutOfRange, line)] }
  | unlabelled (a : Addr) (label : st.label = none) :
      WordCase line st p { p with lc := p.lc + 1, placed := p.placed ++ [⟨line, a, st⟩] }
  | bound (a : Addr) {l : Text} (label : st.label = some l) (unbound : p.symbols.lookup l = none) :
      WordCase line st p
        { p with lc := p.lc + 1, symbols := p.symbols ++ [(l, a)], placed := p.placed ++ [⟨line, a, st⟩] }
  | duplicate (a : Addr) {l : Text} {b : Addr} (label : st.label = some l) (bound : p.symbols.lookup l = some b) :
      WordCase line st p
        { p with lc := p.lc + 1, errors := p.errors ++ [(.duplicateLabel, line)], placed := p.placed ++ [⟨line, a, st⟩] }

theorem wordCase (line : Nat) (st : Statement) (p : PassOne) : WordCase line st p (passOneWord line st p) := by
  by_cases inRange : p.lc < Config.memWords
  · rw [passOneWord_inRange line st inRange]
    obtain ⟨label, h⟩ | ⟨l, b, label, bound, h⟩ | ⟨l, label, unbound, h⟩ :=
      bindLabel_cases line st.label (BitVec.ofNat 12 p.lc) p <;> rw [h]
    · exact .unlabelled _ label
    · exact .duplicate _ label bound
    · exact .bound _ label unbound
  · rw [passOneWord_beyond line st (Nat.not_lt.mp inRange)]
    exact .beyond

/-! ## The statement about each kind of line -/

/-- ORG with one operand and nothing else (R221). -/
theorem passOneOrg_operand {line : Nat} {st : Statement} {p : PassOne} {o : Text} {v : Nat} (label : st.label = none)
    (operand : st.operand = some o) (indicator : st.indicator = none) (value : hexLiteral o = some v) :
    passOneOrg line st p = if v < Config.memWords then { p with lc := v } else failLine .operandOutOfRange line p := by
  simp only [passOneOrg, label, operand, indicator, value]

/-- ORG of any other shape (R221). -/
theorem passOneOrg_bad {line : Nat} {st : Statement} {p : PassOne}
    (h : st.label ≠ none ∨ st.operand = none ∨ st.indicator ≠ none ∨ ∃ o, st.operand = some o ∧ hexLiteral o = none) :
    passOneOrg line st p = failLine .syntaxError line p := by
  obtain ⟨label, mnemonic, operand, indicator⟩ := st
  cases label with
  | some _ => rfl
  | none =>
    cases operand with
    | none => rfl
    | some o =>
      cases indicator with
      | some _ => rfl
      | none =>
        have malformed : hexLiteral o = none := by simpa using h
        simp only [passOneOrg, malformed]

/-- A word-producing line at an address of memory (R222). -/
theorem passOneWord_of_address {line : Nat} {st : Statement} {p : PassOne} {a : Addr} (ha : a.toNat = p.lc) :
    passOneWord line st p =
      { bindLabel line st.label a p with
        lc := p.lc + 1, placed := (bindLabel line st.label a p).placed ++ [⟨line, a, st⟩] } := by
  have inRange : p.lc < Config.memWords := ha ▸ a.isLt
  have address : BitVec.ofNat 12 p.lc = a := by rw [← ha, BitVec.ofNat_toNat, BitVec.setWidth_eq]
  rw [passOneWord_inRange line st inRange, address]

/-- Settles O54: `passOneFrom_end`, `passOneFrom_org` and `passOneFrom_word`, and what END, ORG and a word-producing line do. -/
theorem passOneLineByLine : Obligations.PassOneLineByLine := by
  intro line l ls p
  refine ⟨fun bad => by simp only [passOneFrom, bad, failLine], fun st parsed => ⟨fun isEnd => ?_, fun isOrg => ?_, ?_⟩⟩
  · rw [passOneFrom_end parsed isEnd, passOneEnd]
    exact ⟨fun bare => if_pos bare, fun notBare => if_neg notBare⟩
  · rw [passOneFrom_org parsed isOrg]
    refine ⟨fun o v label operand indicator value => ?_, fun shape => by rw [passOneOrg_bad shape, failLine]⟩
    rw [passOneOrg_operand label operand indicator value]
    constructor
    · intro (inRange : v ≤ 0xFFF)
      have inMemory : v < Config.memWords := Nat.lt_succ_of_le inRange
      rw [if_pos inMemory]
    · intro (beyond : Config.memWords ≤ v)
      rw [if_neg (Nat.not_lt.mpr beyond), failLine]
  · intro notEnd notOrg
    refine ⟨passOneFrom_word parsed notEnd notOrg, fun a ha => ?_, fun beyond => ?_⟩
    · rw [passOneWord_of_address ha]
      refine ⟨fun label => ?_, fun k label unbound => ?_, fun k b label bound => ?_⟩
      · simp [bindLabel, label]
      · simp [bindLabel, label, unbound]
      · simp [bindLabel, label, bound, failLine]
    · rw [passOneWord_beyond line st beyond, failLine]

/-! ## Comments and the lines after END -/

theorem passOneFrom_map_withoutComment (line : Nat) (p : PassOne) (ls : List Text) :
    passOneFrom line p (ls.map withoutComment) = passOneFrom line p ls := by
  induction ls generalizing line p with
  | nil => rfl
  | cons l ls ih => simp only [List.map_cons, passOneFrom_cons, parseLine_withoutComment, ih]

/-- The assembler's result depends on pass one alone. -/
theorem assembleSource_congr {source source' : List Text} (h : passOne source = passOne source') :
    assembleSource source = assembleSource source' := by
  simp only [assembleSource, h]

/-- What stands before the first `/` is kept. -/
theorem withoutComment_append {l : Text} (rest : Text) (h : '/' ∉ l) : withoutComment (l ++ '/' :: rest) = l := by
  have kept : ∀ c ∈ l, (c != '/') = true := fun c hc => by
    rw [bne_iff_ne]
    rintro rfl
    exact h hc
  simp [withoutComment, List.takeWhile_append_of_pos kept]

/-- Settles O51: the line model reads a line without its comment. -/
theorem commentsAreRemovedFirst : Obligations.CommentsAreRemovedFirst :=
  ⟨fun source => assembleSource_congr (passOneFrom_map_withoutComment 0 PassOne.start source),
    fun _ rest => withoutComment_append rest⟩

theorem passOneFrom_append_end {l : Text} (hl : endsScan (parseLine l) = true) (line : Nat) (p : PassOne)
    (before after after' : List Text) :
    passOneFrom line p (before ++ l :: after) = passOneFrom line p (before ++ l :: after') := by
  induction before generalizing line p with
  | nil => simp only [List.nil_append, passOneFrom_cons, hl, if_true]
  | cons b before ih => simp only [List.cons_append, passOneFrom_cons, ih]

/-- Settles O53: the scan does not go on after the first END, at or before this one. -/
theorem linesAfterEndAreIgnored : Obligations.LinesAfterEndAreIgnored := by
  intro before after after' l st parsed isEnd
  exact assembleSource_congr
    (passOneFrom_append_end (by simp [parsed, endsScan, isEnd]) 0 PassOne.start before after after')

/-! ## Blank lines -/

/-- A line as pass two sees it, without its number. -/
def PlacedLine.unnumbered (q : PlacedLine) : PlacedLine := { q with line := 0 }

/-- The data of pass one without the numbers of lines. -/
def PassOne.unnumbered (p : PassOne) : PassOne :=
  { p with errors := p.errors.map fun x => (x.1, 0), placed := p.placed.map PlacedLine.unnumbered }

theorem unnumbered_failLine (k : ErrorKind) (line : Nat) (p : PassOne) :
    (failLine k line p).unnumbered = failLine k 0 p.unnumbered := by
  simp [PassOne.unnumbered, failLine]

theorem unnumbered_passOneEnd (line : Nat) (st : Statement) (p : PassOne) :
    (passOneEnd line st p).unnumbered = passOneEnd 0 st p.unnumbered := by
  simp only [passOneEnd]
  split
  · rfl
  · exact unnumbered_failLine _ line p

theorem unnumbered_passOneOrg (line : Nat) (st : Statement) (p : PassOne) :
    (passOneOrg line st p).unnumbered = passOneOrg 0 st p.unnumbered := by
  simp only [passOneOrg]
  split
  · split
    · exact unnumbered_failLine _ line p
    · split
      · rfl
      · exact unnumbered_failLine _ line p
  · exact unnumbered_failLine _ line p

theorem unnumbered_bindLabel (line : Nat) (label : Option Text) (a : Addr) (p : PassOne) :
    (bindLabel line label a p).unnumbered = bindLabel 0 label a p.unnumbered := by
  cases label with
  | none => rfl
  | some l =>
    have sameTable : p.unnumbered.symbols = p.symbols := rfl
    simp only [bindLabel, sameTable]
    cases p.symbols.lookup l with
    | none => rfl
    | some b => exact unnumbered_failLine _ line p

theorem unnumbered_passOneWord (line : Nat) (st : Statement) (p : PassOne) :
    (passOneWord line st p).unnumbered = passOneWord 0 st p.unnumbered := by
  by_cases inRange : p.lc < Config.memWords
  · rw [passOneWord_inRange line st inRange, passOneWord_inRange 0 st (p := p.unnumbered) inRange, ← unnumbered_bindLabel line]
    simp [PassOne.unnumbered, PlacedLine.unnumbered]
  · have beyond := Nat.not_lt.mp inRange
    rw [passOneWord_beyond line st beyond, passOneWord_beyond 0 st (p := p.unnumbered) beyond, ← unnumbered_failLine]
    rfl

/-- What a line does does not depend on its number, but for the numbers that it leaves. -/
theorem unnumbered_passOneLine (line : Nat) (l : Line) (p : PassOne) :
    (passOneLine line l p).unnumbered = passOneLine 0 l p.unnumbered := by
  cases l with
  | blank => rfl
  | bad => exact unnumbered_failLine _ line p
  | stmt st =>
    simp only [passOneLine]
    split
    · exact unnumbered_passOneEnd line st p
    · split
      · exact unnumbered_passOneOrg line st p
      · exact unnumbered_passOneWord line st p

theorem unnumbered_passOneFrom {p p' : PassOne} (h : p.unnumbered = p'.unnumbered) (line line' : Nat) (ls : List Text) :
    (passOneFrom line p ls).unnumbered = (passOneFrom line' p' ls).unnumbered := by
  induction ls generalizing line line' p p' with
  | nil => exact h
  | cons l ls ih =>
    have step : (passOneLine line (parseLine l) p).unnumbered = (passOneLine line' (parseLine l) p').unnumbered := by
      rw [unnumbered_passOneLine, unnumbered_passOneLine, h]
    simp only [passOneFrom_cons]
    split
    · exact step
    · exact ih step _ _

theorem parseLine_blank {b : Text} (h : (withoutComment b).all isBlank = true) : parseLine b = .blank := by
  simp only [parseLine, h, if_true]

/-- A blank line changes nothing but the numbers of the lines after it. -/
theorem unnumbered_passOneFrom_blank {b : Text} (blank : parseLine b = .blank) (line : Nat) (p : PassOne)
    (before after : List Text) :
    (passOneFrom line p (before ++ b :: after)).unnumbered = (passOneFrom line p (before ++ after)).unnumbered := by
  induction before generalizing line p with
  | nil =>
    rw [List.nil_append, List.nil_append, passOneFrom_cons, blank]
    exact unnumbered_passOneFrom rfl _ _ after
  | cons c before ih =>
    simp only [List.cons_append, passOneFrom_cons]
    split
    · rfl
    · exact ih _ _

theorem passTwoProgram_unnumbered (symbols : List (Text × Addr)) (ps : List PlacedLine) :
    passTwoProgram symbols (ps.map PlacedLine.unnumbered) = passTwoProgram symbols ps := by
  induction ps with
  | nil => rfl
  | cons p ps ih => simp only [List.map_cons, passTwoProgram, ih, PlacedLine.unnumbered]

theorem passTwoErrors_unnumbered (symbols : List (Text × Addr)) (ps : List PlacedLine) :
    (passTwoErrors symbols (ps.map PlacedLine.unnumbered)).map Prod.fst = (passTwoErrors symbols ps).map Prod.fst := by
  induction ps with
  | nil => rfl
  | cons p ps ih =>
    simp only [List.map_cons, passTwoErrors, PlacedLine.unnumbered]
    cases encodeLine symbols p.stmt with
    | ok w => exact ih
    | error k => exact congrArg (k :: ·) ih

/-- Sources whose pass one differs in the numbers of lines alone assemble to the same ST, AP and kinds of errors. -/
theorem assembleSource_of_unnumbered_eq {source source' : List Text}
    (h : (passOne source).unnumbered = (passOne source').unnumbered) :
    (assembleSource source).symbols = (assembleSource source').symbols ∧
    (assembleSource source).program = (assembleSource source').program ∧
    (assembleSource source).errors.map Prod.fst = (assembleSource source').errors.map Prod.fst := by
  have symbols : (passOne source).symbols = (passOne source').symbols := by
    simpa only [PassOne.unnumbered] using congrArg PassOne.symbols h
  have placed : (passOne source).placed.map PlacedLine.unnumbered = (passOne source').placed.map PlacedLine.unnumbered := by
    simpa only [PassOne.unnumbered] using congrArg PassOne.placed h
  have errors : (passOne source).errors.map Prod.fst = (passOne source').errors.map Prod.fst := by
    simpa [PassOne.unnumbered, Function.comp_def] using congrArg (fun p => p.errors.map Prod.fst) h
  refine ⟨symbols, ?_, ?_⟩
  · simp only [assembleSource]
    rw [← passTwoProgram_unnumbered, symbols, placed, passTwoProgram_unnumbered]
  · simp only [assembleSource, List.map_append]
    rw [← passTwoErrors_unnumbered, symbols, placed, passTwoErrors_unnumbered, errors]

/-- Settles O52: a blank line changes nothing but the numbers of lines. -/
theorem blankLinesDoNothing : Obligations.BlankLinesDoNothing := by
  intro before after b blank
  exact assembleSource_of_unnumbered_eq
    (unnumbered_passOneFrom_blank (parseLine_blank blank) 0 PassOne.start before after)

end Sys2Proof.Machine
end

section
/-! The assembler's errors (R223, R226, R232, R235): in each pass at most one for a line, in line order; which of them are about
duplicate labels; and that the Error entries are these errors. -/

namespace Sys2Proof.Machine

/-! ## Line numbers rise -/

/-- Strictly rising numbers, all below `n`. -/
def RisesBelow (n : Nat) (ls : List Nat) : Prop := ls.Pairwise (· < ·) ∧ ∀ x ∈ ls, x < n

theorem RisesBelow.succ {n : Nat} {ls : List Nat} (h : RisesBelow n ls) : RisesBelow (n + 1) ls :=
  ⟨h.1, fun x hx => Nat.lt_succ_of_lt (h.2 x hx)⟩

theorem RisesBelow.append {n : Nat} {ls : List Nat} (h : RisesBelow n ls) : RisesBelow (n + 1) (ls ++ [n]) := by
  obtain ⟨rises, below⟩ := h
  refine ⟨List.pairwise_append.mpr ⟨rises, List.pairwise_singleton _ n, by simpa using below⟩, fun x hx => ?_⟩
  simp only [List.mem_append, List.mem_singleton] at hx
  obtain hx | rfl := hx
  · exact Nat.lt_succ_of_lt (below x hx)
  · exact Nat.lt_succ_self x

/-- The errors and the placed lines of pass one are about strictly rising lines, all before line `n`. -/
structure LinesRise (n : Nat) (p : PassOne) : Prop where
  errors : RisesBelow n (p.errors.map Prod.snd)
  placed : RisesBelow n (p.placed.map PlacedLine.line)

theorem LinesRise.after_failLine {n : Nat} {p : PassOne} (k : ErrorKind) (h : LinesRise n p) :
    LinesRise (n + 1) (failLine k n p) where
  errors := by simpa [failLine] using h.errors.append
  placed := h.placed.succ

theorem LinesRise.after_passOneWord {n : Nat} {p : PassOne} (st : Statement) (h : LinesRise n p) :
    LinesRise (n + 1) (passOneWord n st p) := by
  have errors : ∀ k, RisesBelow (n + 1) ((p.errors ++ [(k, n)]).map Prod.snd) := fun k => by
    simpa using h.errors.append
  have placed : ∀ a, RisesBelow (n + 1) ((p.placed ++ [(⟨n, a, st⟩ : PlacedLine)]).map PlacedLine.line) := fun a => by
    simpa using h.placed.append
  have way := wordCase n st p
  generalize passOneWord n st p = p' at way ⊢
  cases way with
  | beyond => exact ⟨errors _, h.placed.succ⟩
  | unlabelled a _ => exact ⟨h.errors.succ, placed a⟩
  | bound a _ _ => exact ⟨h.errors.succ, placed a⟩
  | duplicate a _ _ => exact ⟨errors _, placed a⟩

theorem passOne_linesRise (source : List Text) : ∃ n, LinesRise n (passOne source) :=
  passOneFrom_induct LinesRise
    (fail := fun _ k _ h _ => h.after_failLine k)
    (origin := fun _ _ _ h _ => ⟨h.errors.succ, h.placed.succ⟩)
    (skip := fun _ _ h => ⟨h.errors.succ, h.placed.succ⟩)
    (word := fun _ _ st _ h _ => h.after_passOneWord st)
    source 0 PassOne.start ⟨⟨.nil, by simp [PassOne.start]⟩, ⟨.nil, by simp [PassOne.start]⟩⟩

/-- The lines of pass two's errors are among the placed lines, in order. -/
theorem passTwoErrors_lines_sublist (symbols : List (Text × Addr)) (ps : List PlacedLine) :
    ((passTwoErrors symbols ps).map Prod.snd).Sublist (ps.map PlacedLine.line) := by
  induction ps with
  | nil => exact .slnil
  | cons p ps ih =>
    obtain ⟨_, -, -, same⟩ | ⟨k, -, -, more⟩ := passTwo_cons symbols p ps
    · rw [same]
      exact ih.cons p.line
    · rw [more]
      exact ih.cons_cons p.line

/-- Every line pass two sees gives one word or one error (R226). -/
theorem passTwo_length (symbols : List (Text × Addr)) (ps : List PlacedLine) :
    (passTwoProgram symbols ps).length + (passTwoErrors symbols ps).length = ps.length := by
  induction ps with
  | nil => rfl
  | cons p ps ih =>
    obtain ⟨_, -, program, errors⟩ | ⟨_, -, program, errors⟩ := passTwo_cons symbols p ps <;>
      simp only [program, errors, List.length_cons] <;> omega

/-- Settles O46: `LinesRise` for pass one; pass two's lines are a part of the placed ones. -/
theorem atMostOneErrorPerLineAndPass : Obligations.AtMostOneErrorPerLineAndPass := by
  intro source
  obtain ⟨n, rise⟩ := passOne_linesRise source
  exact ⟨rise.errors.1, rise.placed.1.sublist (passTwoErrors_lines_sublist _ _), passTwo_length _ _⟩

/-! ## Duplicate labels -/

/-- The placed lines with the label `l`. -/
def labelledLines (p : PassOne) (l : Text) : List PlacedLine := p.placed.filter fun q => q.stmt.label == some l

/-- The DuplicateLabel errors about a line with the label `l`. -/
def duplicateErrors (p : PassOne) (l : Text) : List AsmError :=
  p.errors.filter fun x => x.1 == .duplicateLabel && (labelledLines p l).any fun q => q.line == x.2

/-- What holds of the DuplicateLabel errors after every line of pass one (R223). -/
structure DuplicatesReported (p : PassOne) : Prop where
  /-- those of a label are about its lines after the first, in order -/
  ofLabel : ∀ l, duplicateErrors p l = ((labelledLines p l).drop 1).map fun q => (.duplicateLabel, q.line)
  /-- each is about a placed line with a label -/
  labelled : ∀ x ∈ p.errors, x.1 = .duplicateLabel → ∃ l, ∃ q ∈ labelledLines p l, q.line = x.2
  /-- each labelled line is an entry of ST or an error -/
  count : (p.errors.filter fun x => x.1 == .duplicateLabel).length + p.symbols.length =
    (p.placed.filter fun q => q.stmt.label.isSome).length

theorem lookup_eq_none_iff_labelledLines {p : PassOne} (firsts : symbolsAreFirstAddresses p) (l : Text) :
    p.symbols.lookup l = none ↔ labelledLines p l = [] := by
  rw [firsts l, firstAddress, Option.map_eq_none_iff, List.find?_eq_none, labelledLines, List.filter_eq_nil_iff]

/-- What placing the word-producing line `q` does to `p`, with the errors `es`: a DuplicateLabel if its label was bound, and
otherwise none (R223). -/
structure Placed (p p' : PassOne) (q : PlacedLine) (es : List AsmError) : Prop where
  placed : p'.placed = p.placed ++ [q]
  errors : p'.errors = p.errors ++ es
  unlabelled : q.stmt.label = none → es = []
  labelled : ∀ l, q.stmt.label = some l → es = if labelledLines p l = [] then [] else [(.duplicateLabel, q.line)]
  count : es.length + p'.symbols.length = p.symbols.length + q.stmt.label.isSome.toNat

section

variable {p p' : PassOne} {q : PlacedLine} {es : List AsmError} (h : Placed p p' q es)
include h

theorem Placed.eq_duplicate {x : AsmError} (hx : x ∈ es) : x = (.duplicateLabel, q.line) ∧ ∃ l, q.stmt.label = some l := by
  cases hl : q.stmt.label with
  | none => simp [h.unlabelled hl] at hx
  | some l =>
    rw [h.labelled l hl] at hx
    split at hx
    · simp at hx
    · exact ⟨List.mem_singleton.mp hx, l, rfl⟩

theorem Placed.labelledLines_eq (l : Text) :
    labelledLines p' l = labelledLines p l ++ if q.stmt.label = some l then [q] else [] := by
  by_cases hl : q.stmt.label = some l <;> simp [labelledLines, h.placed, hl]

/-- A placed line with the label `l` adds its errors to those of `l`; any other adds none. -/
theorem Placed.duplicateErrors_eq (rise : LinesRise q.line p) (l : Text) :
    duplicateErrors p' l = duplicateErrors p l ++ if q.stmt.label = some l then es else [] := by
  have older : ∀ x ∈ p.errors, (q.line == x.2) = false := fun x hx =>
    beq_false_of_ne (rise.errors.2 _ (List.mem_map_of_mem hx)).ne'
  have earlier : ((labelledLines p l).any fun r => r.line == q.line) = false := by
    rw [List.any_eq_false]
    intro r hr
    have := rise.placed.2 _ (List.mem_map_of_mem (List.mem_of_mem_filter hr))
    simpa using this.ne
  simp only [duplicateErrors, h.errors, List.filter_append, h.labelledLines_eq, List.any_append]
  congr 1
  · refine List.filter_congr fun x hx => ?_
    split <;> simp [older x hx]
  · split
    · rw [List.filter_eq_self]
      intro x hx
      simp [(h.eq_duplicate hx).1]
    · rw [List.filter_eq_nil_iff]
      intro x hx
      simp only [(h.eq_duplicate hx).1, earlier]
      simp

theorem Placed.reported (rise : LinesRise q.line p) (reported : DuplicatesReported p) : DuplicatesReported p' where
  ofLabel l := by
    rw [h.duplicateErrors_eq rise, h.labelledLines_eq, reported.ofLabel l]
    by_cases hl : q.stmt.label = some l
    · rw [if_pos hl, if_pos hl, h.labelled l hl]
      cases labelledLines p l <;> simp
    · simp [hl]
  labelled x hx hk := by
    rw [h.errors, List.mem_append] at hx
    obtain hx | hx := hx
    · obtain ⟨l, r, hr, hline⟩ := reported.labelled x hx hk
      exact ⟨l, r, by rw [h.labelledLines_eq]; exact List.mem_append_left _ hr, hline⟩
    · obtain ⟨rfl, l, hl⟩ := h.eq_duplicate hx
      exact ⟨l, q, by rw [h.labelledLines_eq]; simp [hl], rfl⟩
  count := by
    have all : (es.filter fun x => x.1 == .duplicateLabel) = es :=
      List.filter_eq_self.mpr fun x hx => by rw [(h.eq_duplicate hx).1]; rfl
    have one : ([q].filter fun r => r.stmt.label.isSome).length = q.stmt.label.isSome.toNat := by
      cases hl : q.stmt.label <;> simp [hl]
    rw [h.errors, h.placed, List.filter_append, List.filter_append, all, List.length_append, List.length_append, one,
      ← reported.count]
    have := h.count
    omega

end

theorem DuplicatesReported.after_failLine {p : PassOne} {k : ErrorKind} (n : Nat) (hk : k ≠ .duplicateLabel)
    (h : DuplicatesReported p) : DuplicatesReported (failLine k n p) where
  ofLabel l := by
    rw [← show labelledLines p l = labelledLines (failLine k n p) l from rfl, ← h.ofLabel l]
    simp [duplicateErrors, failLine, labelledLines, hk]
  labelled x hx hx' := by
    simp only [failLine, List.mem_append, List.mem_singleton] at hx
    obtain hx | rfl := hx
    · exact h.labelled x hx hx'
    · exact absurd hx' hk
  count := by simpa [failLine, hk] using h.count

theorem DuplicatesReported.after_passOneWord {n : Nat} {p : PassOne} (st : Statement) (rise : LinesRise n p)
    (firsts : symbolsAreFirstAddresses p) (h : DuplicatesReported p) : DuplicatesReported (passOneWord n st p) := by
  have way := wordCase n st p
  generalize passOneWord n st p = p' at way ⊢
  cases way with
  | beyond =>
    have := h.after_failLine n (k := .addressOutOfRange) (by decide)
    exact ⟨this.ofLabel, this.labelled, this.count⟩
  | unlabelled a label =>
    refine Placed.reported (p := p) (q := ⟨n, a, st⟩) (es := []) ⟨rfl, (List.append_nil _).symm, fun _ => rfl, ?_, ?_⟩
      rise h <;>
      simp [label]
  | bound a label unbound =>
    refine Placed.reported (p := p) (q := ⟨n, a, st⟩) (es := []) ⟨rfl, (List.append_nil _).symm, fun _ => rfl, ?_, ?_⟩
      rise h <;>
      simp [label, (lookup_eq_none_iff_labelledLines firsts _).mp unbound]
  | @duplicate a l b label bound =>
    have earlier : labelledLines p l ≠ [] := fun e => by
      simp [(lookup_eq_none_iff_labelledLines firsts l).mpr e] at bound
    refine Placed.reported (p := p) (q := ⟨n, a, st⟩) (es := [(.duplicateLabel, n)]) ⟨rfl, rfl, ?_, ?_, ?_⟩ rise h
    · simp [label]
    · simp [label, earlier]
    · simp [label, Nat.add_comm]

/-- The DuplicateLabel errors of a source, by one induction over its lines. -/
theorem passOne_duplicatesReported (source : List Text) : DuplicatesReported (passOne source) := by
  obtain ⟨n, -, -, reported⟩ :=
    passOneFrom_induct (fun n p => LinesRise n p ∧ symbolsAreFirstAddresses p ∧ DuplicatesReported p)
      (fail := fun n k p ⟨rise, firsts, h⟩ hk => ⟨rise.after_failLine k, firsts, h.after_failLine n hk⟩)
      (origin := fun _ _ _ ⟨rise, firsts, h⟩ _ =>
        ⟨⟨rise.errors.succ, rise.placed.succ⟩, firsts, ⟨h.ofLabel, h.labelled, h.count⟩⟩)
      (skip := fun _ _ ⟨rise, firsts, h⟩ => ⟨⟨rise.errors.succ, rise.placed.succ⟩, firsts, h⟩)
      (word := fun n _ st _ ⟨rise, firsts, h⟩ _ =>
        ⟨rise.after_passOneWord st, passOneWord_symbolsAreFirstAddresses n st firsts, h.after_passOneWord st rise firsts⟩)
      source 0 PassOne.start
      ⟨⟨⟨.nil, by simp [PassOne.start]⟩, ⟨.nil, by simp [PassOne.start]⟩⟩, fun _ => rfl, fun _ => rfl,
        by simp [PassOne.start], rfl⟩
  exact reported

/-- Settles O45: the three clauses of `DuplicatesReported`. -/
theorem duplicateLabelCount : Obligations.DuplicateLabelCount := by
  intro source
  have reported := passOne_duplicatesReported source
  exact ⟨reported.ofLabel, reported.labelled, reported.count⟩

/-! ## The Error entries -/

theorem interleave_errors (source : List Text) (place : Nat) (xs : List AsmError) :
    (interleave source place xs).filter (fun x => x.level == .error) = xs.map asmErrorEntry := by
  induction xs generalizing place with
  | nil => exact progressEntries_noError _
  | cons x xs ih =>
    have isError : (asmErrorEntry x).level = .error := rfl
    simp [interleave, progressEntries_noError, isError, ih]

/-- Settles O55: the entries beside the errors are of the levels Info and Debug. -/
theorem errorEntriesAreTheErrors : Obligations.ErrorEntriesAreTheErrors :=
  fun source => interleave_errors source 0 _

end Sys2Proof.Machine
end

section
/-! Pass two, line by line (R226 to R232), and the literals (R217). -/

namespace Sys2Proof.Machine

/-! ## Memory-reference lines -/

/-- The memory-reference mnemonics and their opcodes (R75). -/
def mriOpcodes : List (Text × Nat) :=
  [("AND".toList, 0), ("ADD".toList, 1), ("LDA".toList, 2), ("STA".toList, 3), ("BUN".toList, 4), ("BSA".toList, 5),
    ("ISZ".toList, 6)]

/-- A memory-reference mnemonic names the instruction whose word is its opcode, the indirect bit and the address (R71, R75). -/
theorem mriNamed_of_opcode {m : Text} {op : Nat} (h : (m, op) ∈ mriOpcodes) (ind : Bool) (a : Addr) :
    ∃ i, mriNamed m ind a = some i ∧ encode i = BitVec.ofNat 16 (ind.toNat * 0x8000 + op * 0x1000 + a.toNat) := by
  simp only [mriOpcodes, List.mem_cons, Prod.mk.injEq, List.not_mem_nil, or_false] at h
  rcases h with ⟨rfl, rfl⟩ | ⟨rfl, rfl⟩ | ⟨rfl, rfl⟩ | ⟨rfl, rfl⟩ | ⟨rfl, rfl⟩ | ⟨rfl, rfl⟩ | ⟨rfl, rfl⟩ <;>
    exact ⟨_, rfl, rfl⟩

theorem encodeLine_mri {m : Text} {op : Nat} (h : (m, op) ∈ mriOpcodes) (symbols : List (Text × Addr))
    (label operand indicator : Option Text) :
    encodeLine symbols ⟨label, m, operand, indicator⟩ = encodeMriLine symbols ⟨label, m, operand, indicator⟩ := by
  obtain ⟨i, named, -⟩ := mriNamed_of_opcode h false 0
  have isName : isMriName m = true := by rw [isMriName, named]; rfl
  simp only [encodeLine, isName, if_true]

/-- A memory-reference line whose indicator gives the indirect flag `ind` (R227). -/
theorem encodeMriLine_operand {m : Text} {op : Nat} (h : (m, op) ∈ mriOpcodes) {symbols : List (Text × Addr)}
    (label : Option Text) (o : Text) {indicator : Option Text} {ind : Bool} (flag : indirectOf indicator = some ind) :
    encodeMriLine symbols ⟨label, m, some o, indicator⟩ =
      (symbols.lookup o).elim (.error .undefinedSymbol) fun a =>
        .ok (BitVec.ofNat 16 (ind.toNat * 0x8000 + op * 0x1000 + a.toNat)) := by
  simp only [encodeMriLine, flag]
  cases symbols.lookup o with
  | none => rfl
  | some a =>
    obtain ⟨i, named, encoded⟩ := mriNamed_of_opcode h ind a
    simp only [named, encoded, Option.elim]

/-- Settles O47: shape, then symbol, then the word of the named instruction. -/
theorem memoryReferenceLineWord : Obligations.MemoryReferenceLineWord := by
  intro symbols label m op h
  simp only [encodeLine_mri h]
  refine ⟨fun o a found => ⟨?_, ?_⟩, fun o unbound => ⟨?_, ?_⟩, fun k => rfl, fun o k notI => ?_⟩
  · rw [encodeMriLine_operand h label o (ind := false) rfl, found]
    simp
  · rw [encodeMriLine_operand h label o (ind := true) rfl, found]
    simp
  · rw [encodeMriLine_operand h label o (ind := false) rfl, unbound]
    rfl
  · rw [encodeMriLine_operand h label o (ind := true) rfl, unbound]
    rfl
  · have noFlag : indirectOf (some k) = none := if_neg notI
    simp only [encodeMriLine, noFlag]

/-! ## Register-reference, input/output, DEC, HEX and unknown lines -/

/-- Settles O48: the mnemonic names its instruction alone. -/
theorem fixedLineWord : Obligations.FixedLineWord := by
  intro symbols label operand indicator i notMri
  obtain ⟨notName, named⟩ := fixedNamed_mnemonicOf notMri
  have line : encodeLine symbols ⟨label, mnemonicOf i, operand, indicator⟩ =
      encodeFixedLine i ⟨label, mnemonicOf i, operand, indicator⟩ := by
    simp only [encodeLine, notName, named, Bool.false_eq_true, if_false]
  rw [line]
  exact ⟨fun bare => if_pos bare, fun notBare => if_neg notBare⟩

/-- A mnemonic of no instruction names none (R231). -/
theorem noInstruction_of_mnemonic {m : Text} (h : ∀ i, mnemonicOf i ≠ m) : isMriName m = false ∧ fixedNamed m = none := by
  have none_named : ∀ l : List Instr, (l.find? fun i => mnemonicOf i == m) = none := fun l => by
    rw [List.find?_eq_none]
    exact fun i _ => by simpa using h i
  exact ⟨by rw [isMriName, mriNamed, none_named]; rfl, none_named _⟩

/-- A line whose mnemonic is no instruction's. -/
theorem encodeLine_of_noInstruction {m : Text} (notName : isMriName m = false) (notNamed : fixedNamed m = none)
    (symbols : List (Text × Addr)) (label operand indicator : Option Text) :
    encodeLine symbols ⟨label, m, operand, indicator⟩ =
      if m = "DEC".toList then encodeDecLine ⟨label, m, operand, indicator⟩
      else if m = "HEX".toList then encodeHexLine ⟨label, m, operand, indicator⟩
      else .error .unknownMnemonic := by
  simp only [encodeLine, notName, notNamed, Bool.false_eq_true, if_false]

theorem encodeLine_dec (symbols : List (Text × Addr)) (label operand indicator : Option Text) :
    encodeLine symbols ⟨label, "DEC".toList, operand, indicator⟩ = encodeDecLine ⟨label, "DEC".toList, operand, indicator⟩ :=
  (encodeLine_of_noInstruction (by decide) (by decide) symbols label operand indicator).trans (if_pos rfl)

theorem encodeLine_hex (symbols : List (Text × Addr)) (label operand indicator : Option Text) :
    encodeLine symbols ⟨label, "HEX".toList, operand, indicator⟩ = encodeHexLine ⟨label, "HEX".toList, operand, indicator⟩ :=
  (encodeLine_of_noInstruction (by decide) (by decide) symbols label operand indicator).trans ((if_neg (by decide)).trans (if_pos rfl))

/-- A DEC or HEX line with an indicator or without an operand (R229, R230). -/
theorem encodeData_badShape {label operand indicator : Option Text} (m : Text) (h : operand = none ∨ indicator ≠ none) :
    encodeDecLine ⟨label, m, operand, indicator⟩ = .error .syntaxError ∧
    encodeHexLine ⟨label, m, operand, indicator⟩ = .error .syntaxError := by
  cases operand with
  | none => exact ⟨rfl, rfl⟩
  | some o =>
    cases indicator with
    | none => simp at h
    | some k => exact ⟨rfl, rfl⟩

/-- Settles O49: shape, form and range of a DEC and of a HEX line; a mnemonic of no table names nothing. -/
theorem dataAndUnknownLineWord : Obligations.DataAndUnknownLineWord := by
  intro symbols label o
  simp only [encodeLine_dec, encodeLine_hex]
  refine ⟨fun v value => ⟨fun inRange => ?_, fun outside => ?_⟩, fun malformed => ?_,
    fun v value => ⟨fun inRange => ?_, fun outside => ?_⟩, fun malformed => ?_, fun m hm k operand shape => ?_,
    fun m operand k unknown notPseudo => ?_⟩
  · refine ⟨BitVec.ofInt 16 v, by simp only [encodeDecLine, value, inRange, and_self, if_true], ?_⟩
    exact BitVec.toInt_ofInt_eq_self (by decide) inRange.1 (Int.lt_of_le_of_lt inRange.2 (by decide))
  · simp only [encodeDecLine, value, outside, if_false]
  · simp only [encodeDecLine, malformed]
  · refine ⟨BitVec.ofNat 16 v, by simp only [encodeHexLine, value, inRange, if_true], ?_⟩
    exact Nat.mod_eq_of_lt (Nat.lt_succ_of_le inRange)
  · simp only [encodeHexLine, value, Nat.not_le.mpr outside, if_false]
  · simp only [encodeHexLine, malformed]
  · simp only [List.mem_cons, List.not_mem_nil, or_false] at hm
    obtain rfl | rfl := hm
    · exact (encodeLine_dec symbols label operand k).trans (encodeData_badShape _ shape).1
    · exact (encodeLine_hex symbols label operand k).trans (encodeData_badShape _ shape).2
  · obtain ⟨notName, notNamed⟩ := noInstruction_of_mnemonic unknown
    simp only [List.mem_cons, List.not_mem_nil, or_false, not_or] at notPseudo
    obtain ⟨-, -, notDec, notHex⟩ := notPseudo
    rw [encodeLine_of_noInstruction notName notNamed, if_neg notDec, if_neg notHex]

/-! ## Literals -/

/-- The digits of R217 have their values. -/
theorem digits_of_values : ∀ p ∈ Claims.hexDigitValues, hexDigit p.1 = some p.2 ∧ (p.2 < 10 → decDigit p.1 = some p.2) := by
  decide

theorem exists_value_of_hexDigit {c : Char} {d : Nat} (h : hexDigit c = some d) :
    ∃ e, (c, e) ∈ Claims.hexDigitValues := by
  have rows : Claims.hexDigitValues.map Prod.fst = decDigits ++ upperDigits ++ lowerDigits := rfl
  suffices mem : c ∈ Claims.hexDigitValues.map Prod.fst by simpa using mem
  rw [rows]
  by_contra hc
  simp only [List.mem_append, not_or] at hc
  obtain ⟨⟨notDec, notUpper⟩, notLower⟩ := hc
  have noUpper : (decDigits ++ upperDigits).idxOf? c = none := by simp [notDec, notUpper]
  have noLower : (decDigits ++ lowerDigits).idxOf? c = none := by simp [notDec, notLower]
  simp [hexDigit, noUpper, noLower] at h

theorem hexDigit_iff {c : Char} {d : Nat} : hexDigit c = some d ↔ (c, d) ∈ Claims.hexDigitValues := by
  refine ⟨fun h => ?_, fun h => (digits_of_values (c, d) h).1⟩
  obtain ⟨e, he⟩ := exists_value_of_hexDigit h
  have value := (digits_of_values (c, e) he).1
  rw [h] at value
  cases value
  exact he

theorem decDigit_iff {c : Char} {d : Nat} : decDigit c = some d ↔ (c, d) ∈ Claims.hexDigitValues ∧ d < 10 := by
  refine ⟨fun h => ?_, fun ⟨h, lt⟩ => (digits_of_values (c, d) h).2 lt⟩
  have inRow : d < decDigits.length := by
    obtain ⟨inRow, -⟩ := List.idxOf?_eq_some_iff.mp h
    exact inRow
  have row : (decDigits ++ upperDigits).idxOf? c = some d := by
    have found : decDigits.findIdx? (· == c) = some d := h
    simp only [List.idxOf?, List.findIdx?_append, found, Option.some_or]
  have asHex : hexDigit c = some d := by simp only [hexDigit, row]
  exact ⟨hexDigit_iff.mp asHex, inRow⟩

/-- A numeral is one or more digits and has the value that they spell (R217). -/
theorem numeral_eq_some {digit : Char → Option Nat} {base v : Nat} {t : Text} :
    numeral digit base t = some v ↔
      t ≠ [] ∧ ∃ ds : List Nat, t.map digit = ds.map some ∧ v = Nat.ofDigits base ds.reverse := by
  by_cases empty : t = []
  · simp [numeral, empty]
  · rw [numeral, if_neg empty, numeralFrom_eq_some]
    simp [empty]

/-- A decimal literal without a sign is a numeral (R217). -/
theorem decLiteral_unsigned {c : Char} (plus : c ≠ '+') (minus : c ≠ '-') (cs : Text) :
    decLiteral (c :: cs) = (numeral decDigit 10 (c :: cs)).map Int.ofNat := by
  unfold decLiteral
  split
  · simp_all
  · simp_all
  · rfl

/-- The digits of a text without sign stand for no sign (R217). -/
theorem head_ne_sign {c : Char} {cs : Text} {ds : List Nat} (h : (c :: cs).map decDigit = ds.map some) : c ≠ '+' ∧ c ≠ '-' := by
  cases ds with
  | nil => simp at h
  | cons d ds =>
    have digit : decDigit c = some d := by simpa using (List.cons.inj h).1
    have plus : decDigit '+' = none := by decide
    have minus : decDigit '-' = none := by decide
    constructor <;> rintro rfl
    · simp [plus] at digit
    · simp [minus] at digit

/-- The three forms of a decimal literal: a numeral after `+`, after `-`, or without a sign (R217). -/
theorem decLiteral_eq_some {t : Text} {v : Int} :
    decLiteral t = some v ↔
      ∃ (sign body : Text) (n : Nat), t = sign ++ body ∧ (sign = [] ∨ sign = ['+'] ∨ sign = ['-']) ∧
        numeral decDigit 10 body = some n ∧ v = (if sign = ['-'] then -1 else 1) * (n : Int) := by
  constructor
  · intro h
    unfold decLiteral at h
    split at h <;> obtain ⟨n, value, rfl⟩ := Option.map_eq_some_iff.mp h
    · exact ⟨['+'], _, n, rfl, .inr (.inl rfl), value, by simp⟩
    · exact ⟨['-'], _, n, rfl, .inr (.inr rfl), value, by simp⟩
    · exact ⟨[], _, n, rfl, .inl rfl, value, by simp⟩
  · rintro ⟨sign, body, n, rfl, rfl | rfl | rfl, value, rfl⟩
    · obtain ⟨nonempty, ds, digits, -⟩ := numeral_eq_some.mp value
      obtain ⟨c, cs, rfl⟩ := List.exists_cons_of_ne_nil nonempty
      obtain ⟨plus, minus⟩ := head_ne_sign digits
      rw [List.nil_append, decLiteral_unsigned plus minus, value]
      simp
    · simp [decLiteral, value]
    · simp [decLiteral, value]

/-- Settles O50: digits by their rows, numerals by `numeralFrom_eq_some`, and the sign before a decimal numeral. -/
theorem literalValues : Obligations.LiteralValues := by
  refine ⟨fun c d => ⟨hexDigit_iff, decDigit_iff⟩, fun t v => numeral_eq_some, fun t v => decLiteral_eq_some.trans ⟨?_, ?_⟩⟩
  · rintro ⟨sign, body, n, shape, signs, value, rfl⟩
    obtain ⟨nonempty, ds, digits, rfl⟩ := numeral_eq_some.mp value
    exact ⟨sign, body, ds, shape, signs, nonempty, digits, rfl⟩
  · rintro ⟨sign, body, ds, shape, signs, nonempty, digits, rfl⟩
    exact ⟨sign, body, _, shape, signs, numeral_eq_some.mpr ⟨nonempty, ds, digits, rfl⟩, rfl⟩

end Sys2Proof.Machine
end
